-- ==== Sys2Proof/Word.lean ====
section
/-! DEFINITION. The plain value types of the block: bytes, nibbles, line levels, signs, and the Frame Buffer as a file of
nibbles (10_state.md R21, R22; 20_memory.md R50, R51). -/

namespace Sys2Proof

/-- Eight bits: one byte of a trace (R85) or of an encoded frame word. -/
abbrev Byte := BitVec 8

/-- "a 4-bit group; the protocol's smallest addressable unit within a frame" (R12). -/
abbrev Nibble := BitVec 4

/-! The Frame Buffer has `N_NIBBLES` slots, a parameter (R6, decision D24), so the buffer, `clocks` and `byte_pos` have no
size of their own: their legal values are the invariants R24, R26 and R35, as decision D4 allows ("A model may use
naturals with the bounds as invariants"). -/

/-- The Frame Buffer: a sequence of nibble slots, slot 0 first; 13 of them at the default geometry (R21). -/
abbrev FrameBuffer := List Nibble

/-- The values of `bit_pos`, 0 to 3: 2 bits (R25). -/
abbrev BitPos := Fin 4

/-- The logic level of a line (R41): the data line at an edge, or the request line. -/
inductive Level where
  | low
  | high
deriving DecidableEq, Repr, Inhabited

/-- A level as a bit: high ("set") is 1 (R56, decision D17; R32 for the request line). -/
def Level.bit : Level → Bool
  | .low => false
  | .high => true

/-- The level a bit stands for (R41). -/
def Level.ofBit : Bool → Level
  | false => .low
  | true => .high

/-- The sign of a Measurement Result (R84: 0 positive, 1 negative). -/
inductive Sign where
  | positive
  | negative
deriving DecidableEq, Repr, Inhabited

end Sys2Proof
end

