-- ==== Sys2Proof/Config.lean ====
section
/-! DEFINITION. The parameters of 00_scope.md R6 as one record with its constraints (92_eei_decisions.md), and the two free
values (the sign of an undefined sign nibble, the order of coincident events), which have no body. -/

namespace Sys2Proof.Config

/-- The source's value of `DP_LITERAL` (R6; R81, decision D16), which the opcode table's frame rows are written with
(R77: match = `0x2 << 44`). -/
abbrev dpLiteralSource : Nibble := 2

/-- Where the Decoder finds each field, which decimal-point nibble it accepts, and what marks a negative sign: the
parameters `IDX_SIGN`, `IDX_DIG_FIRST`, `IDX_DIG_LAST`, `IDX_DP`, `IDX_UNIT`, `DP_LITERAL` and `SIGN_NEG` (R6, decision
D24). -/
structure Layout where
  /-- `IDX_SIGN`: the slot of the sign (R62). -/
  idxSign : Nat
  /-- `IDX_DIG_FIRST`: the slot of the most significant digit (R62). -/
  idxDigFirst : Nat
  /-- `IDX_DIG_LAST`: the slot of the least significant digit (R62). -/
  idxDigLast : Nat
  /-- `IDX_DP`: the slot of the decimal-point nibble (R62). -/
  idxDp : Nat
  /-- `IDX_UNIT`: the slot of the unit flag (R62). -/
  idxUnit : Nat
  /-- `DP_LITERAL`: the only accepted value of the decimal-point slot (R74). -/
  dpLiteral : Nibble
  /-- `SIGN_NEG`: the sign nibble that means negative (R72). -/
  signNeg : Nibble
deriving DecidableEq, Repr

/-- The layout of the source (R6, R62). -/
def Layout.source : Layout where
  idxSign := 4
  idxDigFirst := 5
  idxDigLast := 10
  idxDp := 11
  idxUnit := 12
  dpLiteral := dpLiteralSource
  signNeg := 8

/-- The parameters of R6: what a model takes as arguments. They are fixed while the block runs (R193), so `State` carries
one record of them that no operation writes. -/
structure Params where
  /-- `N_BITS`: bits in one frame (R70). -/
  nBits : Nat
  /-- `N_NIBBLES`: slots in the frame buffer (R21). -/
  nNibbles : Nat
  /-- `NIBBLE_W`: bits per slot (R22). -/
  nibbleW : Nat
  /-- the field indices, `DP_LITERAL` and `SIGN_NEG` (decision D24) -/
  layout : Layout
  /-- `OVR_W`: width of `overrun_count` in bits (decision D5). -/
  ovrW : Nat
  /-- `IDLE_TICKS`: ticks spent in AwaitingWindow before each request (decisions D7, D24). -/
  idleTicks : Nat
  /-- `TIMEOUT_TICKS`: the count that must be exceeded for a timeout (decisions D8, D24). -/
  timeoutTicks : Nat
  /-- `STRICT_DIGITS`: reject digit nibbles 0xA to 0xF (decision D15). -/
  strictDigits : Bool
deriving DecidableEq, Repr

/-- Every parameter at its default: "the source's machine exactly" (R6). -/
def Params.source : Params where
  nBits := 52
  nNibbles := 13
  nibbleW := 4
  layout := Layout.source
  ovrW := 8
  idleTicks := 10
  timeoutTicks := 250
  strictDigits := false

/-- `N_BITS = NIBBLE_W * N_NIBBLES` (decision D24), with any number of slots, each within the 4 bits of a nibble (R12, R22;
log entry 25). -/
def Params.geometryWf (p : Params) : Bool :=
  decide (1 ≤ p.nibbleW) && decide (p.nibbleW ≤ 4) && decide (1 ≤ p.nNibbles) &&
    decide (p.nBits = p.nibbleW * p.nNibbles)

/-- Every field stands in a slot of the buffer, the digit slots are the six of a Measurement Result (R73, R84), and the
literal is a number of digits after the point that its `dp` can hold, 0 to 6 (R84; log entry 25). -/
def Params.layoutWf (p : Params) : Bool :=
  decide (p.layout.idxSign < p.nNibbles) && decide (p.layout.idxDigLast < p.nNibbles) &&
    decide (p.layout.idxDp < p.nNibbles) && decide (p.layout.idxUnit < p.nNibbles) &&
    decide (p.layout.idxDigLast = p.layout.idxDigFirst + 5) && decide (p.layout.dpLiteral.toNat ≤ 6)

/-- The constraints of the table "Open parameters" of 92_eei_decisions.md. -/
def Params.wf (p : Params) : Bool :=
  p.geometryWf && p.layoutWf && decide (1 ≤ p.ovrW) && decide (1 ≤ p.idleTicks) && decide (p.idleTicks < 256) &&
    decide (p.timeoutTicks + 1 < 256)

/-- FREE VALUE `SIGN_OTHER`: the sign of an accepted frame whose sign nibble (slot 4) is neither 0x0 nor `SIGN_NEG` (0x8),
a total function of the nibble alone (R79, decision D11). No body: no claim can rest on the spec's default. -/
opaque signOther : Nibble → Sign

/-- FREE VALUE: whether the first-named of two events that occur together is taken first, for the n-th coincidence of
the run (R177, decisions D10 and D22). No body: a claim holds for either order. -/
opaque firstNamedFirst : Nat → Bool

end Sys2Proof.Config
end

