-- ==== Sys2Proof/Syntax.lean ====
section
/-! DEFINITION. The events of the block, its three Acquisition States, the conditions that select an operation, the
fields of a 52-bit frame, and the one inductive of operations: one constructor per row of spec/opcode_table.json
(30_encoding.md R71, R82, R83; 10_state.md R29, R42). -/

namespace Sys2Proof

/-- The input events: "a state machine over three kinds of input event" (R7, R82). -/
inductive Event where
  /-- `TICK`: one activation of the Scheduler. -/
  | tick
  /-- `RST`: reset. -/
  | rst
  /-- `CLK_FALL(d)`: a falling clock edge with the data line at level `d`. -/
  | clkFall (d : Level)
deriving DecidableEq, Repr

/-- The Acquisition State, the register `state` (R29): three values, so that code 3 cannot be written down. -/
inductive AcquisitionState where
  | awaitingWindow
  | requestSent
  | awaitingData
deriving DecidableEq, Repr

/-- The four conditions of R42, each computed from the state and none stored, and beside them the one that the option
`STRICT_DIGITS` adds (R80). -/
structure Conditions where
  /-- `frame_complete` -/
  frameComplete : Bool
  /-- `window_expired` -/
  windowExpired : Bool
  /-- `timed_out` -/
  timedOut : Bool
  /-- `frame_valid` -/
  frameValid : Bool
  /-- a digit nibble that `STRICT_DIGITS` rejects; never so at the default (R80, decision D15) -/
  digitRejected : Bool
deriving DecidableEq, Repr

/-- "`DECODE` succeeds" (R83): the gate is passed (R42, R151) and the strict check, where it is on, too (R80; log entry
20). -/
def Conditions.decodes (c : Conditions) : Bool := c.frameValid && !c.digitRejected

/-- The fields of a 52-bit frame under the letters of R71, but for the decimal-point nibble `p`. -/
structure FrameFields where
  /-- header, slots 0 to 3 -/
  h : BitVec 16
  /-- sign, slot 4 -/
  s : Nibble
  /-- digit 1, most significant, slot 5 -/
  a : Nibble
  /-- digit 2, slot 6 -/
  b : Nibble
  /-- digit 3, slot 7 -/
  c : Nibble
  /-- digit 4, slot 8 -/
  d : Nibble
  /-- digit 5, slot 9 -/
  e : Nibble
  /-- digit 6, least significant, slot 10 -/
  f : Nibble
  /-- unit, slot 12 -/
  u : Nibble
deriving DecidableEq, Repr

/-- The operations: one constructor per row of spec/opcode_table.json, in the table's order (R5, R83). -/
inductive Instr where
  /-- `FRAME.VALID`: the Decoder on a frame whose decimal-point nibble is 2 (R77). -/
  | frameValid (x : FrameFields)
  /-- `FRAME.INVALID`: the Decoder on a frame whose decimal-point nibble `p` is not 2 (R78). -/
  | frameInvalid (x : FrameFields) (p : Nibble)
  /-- `RST` (R200) -/
  | rst
  /-- `CLK.SAMPLE` with the data level of the edge (R101) -/
  | clkSample (d : Level)
  /-- `CLK.OVERRUN` with the data level of the edge, which it ignores (R102) -/
  | clkOverrun (d : Level)
  /-- `TICK.AW.HOLD` (R122) -/
  | tickAwHold
  /-- `TICK.AW.EXPIRE` (R123) -/
  | tickAwExpire
  /-- `TICK.RS` (R124) -/
  | tickRs
  /-- `TICK.AD.DONE.OK` (R125) -/
  | tickAdDoneOk
  /-- `TICK.AD.DONE.ERR` (R125) -/
  | tickAdDoneErr
  /-- `TICK.AD.TIMEOUT` (R126) -/
  | tickAdTimeout
  /-- `TICK.AD.WAIT` (R127) -/
  | tickAdWait
  /-- `DECODE`: the Decoder applied to any frame (R150) -/
  | decode (x : FrameFields) (p : Nibble)
deriving DecidableEq, Repr

end Sys2Proof
end

