-- ==== Sys2Proof/WellFormed.lean ====
section
/-! DEFINITION. When an operation, as syntax, is one that the opcode table has: the fields that the types leave too wide
are checked here. -/

namespace Sys2Proof

/-- A `FRAME.INVALID` has "every one of the 15 other values" of the decimal-point nibble (R78); every other field of
every other row is exact by its type. -/
def Instr.wellFormed : Instr → Bool
  | .frameValid _ => true
  | .frameInvalid _ p => p != Config.dpLiteralSource
  | .rst => true
  | .clkSample _ => true
  | .clkOverrun _ => true
  | .tickAwHold => true
  | .tickAwExpire => true
  | .tickRs => true
  | .tickAdDoneOk => true
  | .tickAdDoneErr => true
  | .tickAdTimeout => true
  | .tickAdWait => true
  | .decode _ _ => true

/-- The input line an event comes from (R41): one clock line, one tick strobe, one reset input. -/
inductive EventSource where
  | clockLine
  | tickStrobe
  | resetInput
deriving DecidableEq, Repr

/-- Which input line produces the event (R41). -/
def Event.source : Event → EventSource
  | .tick => .tickStrobe
  | .rst => .resetInput
  | .clkFall _ => .clockLine

/-- Two events can occur together only if they come from different lines (R174, R177). -/
def coincidenceWellFormed (x y : Event) : Bool := x.source != y.source

end Sys2Proof
end

