-- ==== Sys2Proof/Decode.lean ====
section
/-! DEFINITION. The encodings: event codes and trace bytes (30_encoding.md R82, R85), the operation map (R83) and the
operation byte that carries its selector and conditions, the 52-bit frame word (R71, 20_memory.md R53), the decoder,
total on any bytes and rejecting by name, and after it the encoder. -/

namespace Sys2Proof

/-- Why a list of bytes is no operation. -/
inductive Reject where
  /-- Neither one operation byte nor the seven bytes of a function word. -/
  | wrongLength (n : Nat)
  /-- The selector `00 11`, "a tick with `state` code 3", which "cannot occur" (R83). -/
  | stateCodeThree
  /-- A function word whose bits 55:52 name neither the frame rows (0) nor `DECODE` (1): DESIGN CHOICE, log entry 5. -/
  | functionTag (t : Nibble)
  /-- A trace byte with a bit above `ev[1:0]` set (R85): DESIGN CHOICE, log entry 6. -/
  | traceByte (b : Byte)
deriving DecidableEq, Repr

/-! ### Events and traces -/

/-- The 2-bit code `ev[1:0]` of an event (R82). -/
def Event.code : Event → BitVec 2
  | .tick => 0b00
  | .rst => 0b01
  | .clkFall .low => 0b10
  | .clkFall .high => 0b11

/-- The event of a 2-bit code: every code is an event (R82). -/
def Event.ofCode (c : BitVec 2) : Event :=
  if c = 0b00 then .tick
  else if c = 0b01 then .rst
  else if c = 0b10 then .clkFall .low
  else .clkFall .high

/-- One event as a byte of a trace: "one byte per event holding `ev[1:0]` in its low two bits" (R85). -/
def Event.traceByte (e : Event) : Byte := e.code.setWidth 8

/-- The event of one trace byte; a byte above 0x03 is rejected by name (R85). -/
def eventOfTraceByte (b : Byte) : Except Reject Event :=
  if b.toNat < 4 then .ok (Event.ofCode (b.setWidth 2)) else .error (.traceByte b)

/-- A trace's bytes as its events, first event first (R85). -/
def decodeTrace : List Byte → Except Reject (List Event)
  | [] => .ok []
  | b :: bs =>
    match eventOfTraceByte b with
    | .error r => .error r
    | .ok e =>
      match decodeTrace bs with
      | .error r => .error r
      | .ok es => .ok (e :: es)

/-- A trace's events as its bytes (R85). -/
def encodeTrace (es : List Event) : List Byte := es.map Event.traceByte

/-! ### The frame word -/

/-- `MemRead(i, 1)`, which is `buf[i]` (R11, R51); an index beyond the buffer, which no operation presents, reads as the
reset value 0. -/
def readSlot (b : FrameBuffer) (i : Nat) : Nibble := b.getD i 0

/-- `MemWrite(i, 1, v)`, which is `buf[i] <- v` (R11, R51). -/
def writeSlot (b : FrameBuffer) (i : Nat) (v : Nibble) : FrameBuffer := b.set i v

/-- Bit `k` of the frame, the `k`-th received bit: bit `k mod NIBBLE_W` of slot `k div NIBBLE_W` (R52, R53). -/
def frameBit (p : Config.Params) (b : FrameBuffer) (k : Nat) : Bool :=
  (readSlot b (k / p.nibbleW)).getLsbD (k % p.nibbleW)

/-- The levels that deliver a buffer, in order of arrival (R52, R71). -/
def frameLevels (p : Config.Params) (b : FrameBuffer) : List Level :=
  List.ofFn fun k : Fin p.nBits => Level.ofBit (frameBit p b k.val)

/-- `F[n0,...,n12]`: the `N_BITS` (52) events that deliver the buffer (R85). -/
def frameEvents (p : Config.Params) (b : FrameBuffer) : List Event := (frameLevels p b).map Event.clkFall

/-- The frame word `W` of a frame's fields, the pattern string of R71 read left to right. -/
def FrameFields.word (x : FrameFields) (p : Nibble) : BitVec 52 :=
  x.u ++ p ++ x.f ++ x.e ++ x.d ++ x.c ++ x.b ++ x.a ++ x.s ++ x.h

/-- The decimal-point nibble of a frame word, `W[47:44]` (R71, R74). -/
def dpOfWord (w : BitVec 52) : Nibble := w.extractLsb' 44 4

/-- The fields of a frame word by the bit positions of R71. -/
def FrameFields.ofWord (w : BitVec 52) : FrameFields where
  h := w.extractLsb' 0 16
  s := w.extractLsb' 16 4
  a := w.extractLsb' 20 4
  b := w.extractLsb' 24 4
  c := w.extractLsb' 28 4
  d := w.extractLsb' 32 4
  e := w.extractLsb' 36 4
  f := w.extractLsb' 40 4
  u := w.extractLsb' 48 4

/-- The buffer that a frame's fields fill, slot 0 first (R71: nibble index of each field). -/
def FrameFields.buffer (x : FrameFields) (p : Nibble) : FrameBuffer :=
  [x.h.extractLsb' 0 4, x.h.extractLsb' 4 4, x.h.extractLsb' 8 4, x.h.extractLsb' 12 4,
    x.s, x.a, x.b, x.c, x.d, x.e, x.f, p, x.u]

/-- `W = sum over i of buf[i] << (4*i)` (R53) of a buffer of 13 slots, slot 12 highest. -/
def frameWord (b : FrameBuffer) : BitVec 52 :=
  readSlot b 12 ++ readSlot b 11 ++ readSlot b 10 ++ readSlot b 9 ++ readSlot b 8 ++ readSlot b 7 ++ readSlot b 6 ++
    readSlot b 5 ++ readSlot b 4 ++ readSlot b 3 ++ readSlot b 2 ++ readSlot b 1 ++ readSlot b 0

/-- The buffer whose slot `i` is `W[4i+3:4i]` (R53). -/
def bufferOfWord (w : BitVec 52) : FrameBuffer := List.ofFn fun i : Fin 13 => w.extractLsb' (4 * i.val) 4

/-! ### The operation map and the operation byte -/

/-- The code of the Acquisition State (R29, decision D6). -/
def AcquisitionState.code : AcquisitionState → BitVec 2
  | .awaitingWindow => 0
  | .requestSent => 1
  | .awaitingData => 2

/-- The Acquisition State of a code; code 3 has none (R29). -/
def AcquisitionState.ofCode (c : BitVec 2) : Option AcquisitionState :=
  if c = 0 then some .awaitingWindow
  else if c = 1 then some .requestSent
  else if c = 2 then some .awaitingData
  else none

/-- The operation map of R83: which operation an event performs, by the Acquisition State and the conditions. -/
def operationOf (c : Conditions) : Event → AcquisitionState → Instr
  | .rst, _ => .rst
  | .clkFall d, _ => if c.frameComplete then .clkOverrun d else .clkSample d
  | .tick, .awaitingWindow => if c.windowExpired then .tickAwExpire else .tickAwHold
  | .tick, .requestSent => .tickRs
  | .tick, .awaitingData =>
    if c.frameComplete then (if c.decodes then .tickAdDoneOk else .tickAdDoneErr)
    else if c.timedOut then .tickAdTimeout
    else .tickAdWait

/-- The operation byte: bits 3:0 the selector `{ev[1:0], state[1:0]}` of R83, and above it the conditions that its table
names, bit 4 `frame_complete`, bit 5 `window_expired`, bit 6 `timed_out`, bit 7 "`DECODE` succeeds" (DESIGN CHOICE, log
entry 4: the table gives the selector four bits and names the conditions in words). -/
def operationByte (c : Conditions) (e : Event) (st : AcquisitionState) : Byte :=
  BitVec.ofBool c.decodes ++ BitVec.ofBool c.timedOut ++ BitVec.ofBool c.windowExpired ++
    BitVec.ofBool c.frameComplete ++ e.code ++ st.code

/-- Conditions that an operation byte stands for; bit 7 set reads as a valid frame with no digit rejected. -/
def conditionsOfByte (b : Byte) : Conditions where
  frameComplete := b.getLsbD 4
  windowExpired := b.getLsbD 5
  timedOut := b.getLsbD 6
  frameValid := b.getLsbD 7
  digitRejected := false

/-- The operation of an operation byte. The state bits are "don't-care" for `RST` and the clock events (R83). -/
def decodeOperation (b : Byte) : Except Reject Instr :=
  match Event.ofCode (b.extractLsb' 2 2) with
  | .rst => .ok (operationOf (conditionsOfByte b) .rst .awaitingWindow)
  | .clkFall d => .ok (operationOf (conditionsOfByte b) (.clkFall d) .awaitingWindow)
  | .tick =>
    match AcquisitionState.ofCode (b.extractLsb' 0 2) with
    | some st => .ok (operationOf (conditionsOfByte b) .tick st)
    | none => .error .stateCodeThree

/-- The operation of a function word: bits 51:0 the frame word of R71, bits 55:52 which row, 0 for the two frame rows
(told apart by the selector of R77) and 1 for `DECODE` (DESIGN CHOICE, log entry 5: the three rows share one pattern). -/
def decodeFunctionWord (v : BitVec 56) : Except Reject Instr :=
  let w := v.extractLsb' 0 52
  let x := FrameFields.ofWord w
  if v.extractLsb' 52 4 = (0 : Nibble) then
    if dpOfWord w = Config.dpLiteralSource then .ok (.frameValid x)
    else .ok (.frameInvalid x (dpOfWord w))
  else if v.extractLsb' 52 4 = (1 : Nibble) then .ok (.decode x (dpOfWord w))
  else .error (.functionTag (v.extractLsb' 52 4))

/-- Seven bytes as a function word, the first byte lowest (R53: bit `k` of `W` is the `k`-th received bit). -/
def functionWordOfBytes (b0 b1 b2 b3 b4 b5 b6 : Byte) : BitVec 56 :=
  b6 ++ b5 ++ b4 ++ b3 ++ b2 ++ b1 ++ b0

/-- A function word as its seven bytes, the lowest first. -/
def bytesOfFunctionWord (v : BitVec 56) : List Byte :=
  [v.extractLsb' 0 8, v.extractLsb' 8 8, v.extractLsb' 16 8, v.extractLsb' 24 8, v.extractLsb' 32 8,
    v.extractLsb' 40 8, v.extractLsb' 48 8]

/-- The decoder, total on any bytes: one operation byte, or the seven bytes of a function word. -/
def decode : List Byte → Except Reject Instr
  | [b] => decodeOperation b
  | [b0, b1, b2, b3, b4, b5, b6] => decodeFunctionWord (functionWordOfBytes b0 b1 b2 b3 b4 b5 b6)
  | bs => .error (.wrongLength bs.length)

/-! ### The encoder -/

/-- The function word of a frame under a row tag. -/
def functionWord (tag : Nibble) (x : FrameFields) (p : Nibble) : BitVec 56 := tag ++ x.word p

/-- The bytes of an operation, from R83's selector (don't-care bits 0) and its "further condition", and from R71. -/
def encode : Instr → List Byte
  | .frameValid x => bytesOfFunctionWord (functionWord 0 x Config.dpLiteralSource)
  | .frameInvalid x p => bytesOfFunctionWord (functionWord 0 x p)
  | .rst => [0b0000_01_00]
  | .clkSample .low => [0b0000_10_00]
  | .clkSample .high => [0b0000_11_00]
  | .clkOverrun .low => [0b0001_10_00]
  | .clkOverrun .high => [0b0001_11_00]
  | .tickAwHold => [0b0000_00_00]
  | .tickAwExpire => [0b0010_00_00]
  | .tickRs => [0b0000_00_01]
  | .tickAdDoneOk => [0b1001_00_10]
  | .tickAdDoneErr => [0b0001_00_10]
  | .tickAdTimeout => [0b0100_00_10]
  | .tickAdWait => [0b0000_00_10]
  | .decode x p => bytesOfFunctionWord (functionWord 1 x p)

/-! ### The opcode table's numbering -/

/-- The bytes of an instruction whose bits are `w` as spec/opcode_table.json numbers them: a row of the event format has
one byte, a row of the 52-bit format seven. -/
def tableBytes (nbits w : Nat) : List Byte :=
  if nbits ≤ 8 then [BitVec.ofNat 8 w] else bytesOfFunctionWord (BitVec.ofNat 56 w)

/-- What the decoder reads from a word of the opcode table. -/
def decodeTableWord (nbits w : Nat) : Option Instr := (decode (tableBytes nbits w)).toOption

end Sys2Proof
end

