-- ==== Sys2Proof/Machine/State.lean ====
section
/-! DEFINITION. The records the block hands out (30_encoding.md R84), what may arrive at the block, the complete state
(10_state.md R20) with the model's own fields beside it, the reasons a step can stop, and the state after reset (R40). -/

namespace Sys2Proof.Machine

/-- The unit of a Measurement Result (R84: 0 metric, 1 imperial). -/
inductive MeasureUnit where
  | metric
  | imperial
deriving DecidableEq, Repr

/-- `MEAS`, the Measurement Result (R84, R156): the six digits are nibbles, most significant first (R153, C5). -/
structure Measurement where
  sign : Sign
  digits : Vector Nibble 6
  dp : BitVec 3
  unit : MeasureUnit
deriving DecidableEq, Repr

/-- `IERR`, the Decode Error or FrameIntegrityError (R84, R157): the raw slots (13) and the overrun count. -/
structure DecodeError where
  raw : FrameBuffer
  ovr : Nat
deriving DecidableEq, Repr

/-- What `DECODE` returns: exactly one of the two (R150). -/
inductive DecodeResult where
  | meas (m : Measurement)
  | ierr (e : DecodeError)
deriving DecidableEq, Repr

/-- A report (R84): `MEAS`, `IERR` or `NODATA`. -/
inductive Report where
  | meas (m : Measurement)
  | ierr (e : DecodeError)
  | nodata
deriving DecidableEq, Repr

/-- What arrives at the block next. The three event lines are R7's; a pair that occurs together is R177's and R174's; a
call of the pure function `DECODE` from outside is the model's own way to run the table's three function rows
(DESIGN CHOICE, log entry 5). -/
inductive Arrival where
  /-- one event -/
  | event (e : Event)
  /-- two events that occur together; the order is a free value (R177) -/
  | together (x y : Event)
  /-- the function word of a call of the Decoder -/
  | decoderCall (v : BitVec 56)
deriving DecidableEq, Repr

/-- The state: first the eight items of R20 under the spec's names (`acq` is the register `state`), then the model's own
fields, which no rule of the block reads but for `params`. -/
structure State where
  /-- `buf[0..12]`, 13 x 4 bits, `N_NIBBLES` slots (R21, R22) -/
  buf : FrameBuffer
  /-- `clocks`, 6 bits, values 0 to `N_BITS` (52) (R24; log entry 26) -/
  clocks : Nat
  /-- `bit_pos`, 2 bits, values 0 to 3 (R25) -/
  bitPos : BitPos
  /-- `byte_pos`, 4 bits, values 0 to `N_NIBBLES` (13) (R26; log entry 26) -/
  bytePos : Nat
  /-- `overrun_count`, `OVR_W` bits, saturating (R27) -/
  overrunCount : Nat
  /-- `state`, the Acquisition State (R29) -/
  acq : AcquisitionState
  /-- `elapsed`, 8 bits (R31) -/
  elapsed : BitVec 8
  /-- `req`, 1 bit: the level of the request line (R32) -/
  req : Level
  /-- the parameters this machine was built with (R6); MODEL's own, log entry 2 -/
  params : Config.Params
  /-- `RPT`: the report of the latest step, none where it emitted none (R41); MODEL's own, log entry 22 -/
  rpt : Option Report
  /-- what the Decoder last returned; MODEL's own, log entry 5 -/
  decoderOut : Option DecodeResult
  /-- what the environment will present, next first (R7, R8); MODEL's own, log entry 1 -/
  stimulus : List Arrival
  /-- ticks since the last `RST`: the index of a report (R85); MODEL's own, log entry 22 -/
  ticks : Nat
  /-- what the reporting interface has received, oldest first, each with its tick (R8, R85); MODEL's own, log entry 22 -/
  sink : List (Nat × Report)
  /-- how many coincidences have been ordered: the counter the free order is applied to; MODEL's own, log entry 8 -/
  draws : Nat
deriving DecidableEq, Repr

/-- Why a run stops. -/
inductive Fault where
  /-- Raised by `CLK.SAMPLE` when `byte_pos` names no slot although `clocks` is not `N_BITS` (52): an address that does not
  exist (R51). Safe: no state that satisfies R35 reaches it (93_implementation_defined.md V8; log entry 19). -/
  | slotIndexOutOfRange (bytePos : Nat)
deriving DecidableEq, Repr

/-- Why the model gives no meaning. -/
inductive Refusal where
  /-- Raised by `exec` for an instruction that has no meaning yet; no arm of this model does so. Safe. -/
  | notModelled (mnemonic : String)
  /-- Raised by an operation in a state whose conditions do not select it (R83: every event selects exactly one
  operation). Safe: `step` only runs the operation that the map selects (log entry 18). -/
  | notSelected
  /-- Raised by `step` on a function word that the decoder rejects. Safe: no event of the block is such a word. -/
  | undecodable (r : Reject)
deriving DecidableEq, Repr

/-- The state after reset: the eight items as R40 gives them, every parameter at its default (R6), nothing arrived and
nothing reported (log entries 1, 2, 9). -/
def State.reset : State where
  buf := List.replicate 13 0
  clocks := 0
  bitPos := 0
  bytePos := 0
  overrunCount := 0
  acq := .awaitingWindow
  elapsed := 0
  req := .high
  params := Config.Params.source
  rpt := none
  decoderOut := none
  stimulus := []
  ticks := 0
  sink := []
  draws := 0

end Sys2Proof.Machine
end

