-- ==== Sys2Proof/Machine/Operands.lean ====
section
/-! DEFINITION. How each operand of the Decoder is assembled from the buffer (30_encoding.md R72 to R76,
42_decoder.md R152 to R155), the number a measurement denotes (R160), and the flat codes of a report (R84). -/

namespace Sys2Proof.Machine

/-- The sign of a sign nibble: 0x0 positive, `SIGN_NEG` (0x8) negative, any other value the free value `SIGN_OTHER`
(R72, R79, R152). -/
def signOf (l : Config.Layout) (n : Nibble) : Sign :=
  if n = 0 then .positive
  else if n = l.signNeg then .negative
  else Config.signOther n

/-- The slot of digit `j`: `IDX_DIG_FIRST + j` (R73). -/
def digitSlot (l : Config.Layout) (j : Fin 6) : Nat := l.idxDigFirst + j.val

/-- `digits[j] = buf[IDX_DIG_FIRST + j]`, most significant first, raw nibbles (R54, R73, R153). -/
def digitsOf (l : Config.Layout) (b : FrameBuffer) : Vector Nibble 6 := Vector.ofFn fun j => readSlot b (digitSlot l j)

/-- The decimal-point operand `p = buf[IDX_DP]`, slot 11 (R74). -/
def dpNibble (l : Config.Layout) (b : FrameBuffer) : Nibble := readSlot b l.idxDp

/-- The `dp` field of a result, "count of digits after the point", 3 bits (R84, R154). -/
def dpOf (l : Config.Layout) (b : FrameBuffer) : BitVec 3 := (dpNibble l b).setWidth 3

/-- The unit of slot 12: 0 metric, every nonzero value imperial (R75, R155). -/
def unitOf (n : Nibble) : MeasureUnit := if n = 0 then .metric else .imperial

/-- The header `buf[0..3] = W[15:0]`, which carries no meaning (R76). -/
def headerOf (b : FrameBuffer) : BitVec 16 := readSlot b 3 ++ readSlot b 2 ++ readSlot b 1 ++ readSlot b 0

/-- Whether some digit nibble is above 9: what `STRICT_DIGITS` rejects (R80). -/
def hasNonDecimalDigit (l : Config.Layout) (b : FrameBuffer) : Bool := (digitsOf l b).toList.any fun n => 9 < n.toNat

/-- The index of the digit after which the point stands, `IDX_DIG_LAST - i == buf[IDX_DP]`: 8 for the literal 2, none for
6 to 15 (R154). -/
def pointIndex (l : Config.Layout) (p : Nibble) : Option Nat :=
  ((List.finRange 6).map (digitSlot l)).find? fun i => l.idxDigLast - i == p.toNat

/-- The six digits as one number, digit 1 most significant (R160). -/
def digitsValue (d : Vector Nibble 6) : Nat :=
  d[0].toNat * 10 ^ 5 + d[1].toNat * 10 ^ 4 + d[2].toNat * 10 ^ 3 + d[3].toNat * 10 ^ 2 + d[4].toNat * 10 + d[5].toNat

/-- The reading a measurement denotes, in units of `10^-dp` millimetres or inches (R160). "The block never computes this
number": no operation calls this function. -/
def Measurement.scaledValue (m : Measurement) : Int :=
  match m.sign with
  | .positive => digitsValue m.digits
  | .negative => -(digitsValue m.digits : Int)

/-- A result of the Decoder as the report that carries it (R125, R84). -/
def DecodeResult.toReport : DecodeResult → Report
  | .meas m => .meas m
  | .ierr e => .ierr e

/-- Whether the Decoder succeeded. -/
def DecodeResult.isMeas : DecodeResult → Bool
  | .meas _ => true
  | .ierr _ => false

/-- The kind code of a report, 0 for "no report in this tick" (R84, decision D13). -/
def reportKind : Option Report → BitVec 2
  | none => 0
  | some (.meas _) => 1
  | some (.ierr _) => 2
  | some .nodata => 3

/-- The code of a sign (R84). -/
def signCode : Sign → BitVec 1
  | .positive => 0
  | .negative => 1

/-- The code of a unit (R84). -/
def unitCode : MeasureUnit → BitVec 1
  | .metric => 0
  | .imperial => 1

/-- The flat form R84 suggests for `MEAS`: `{kind, sign, digits[0], ..., digits[5], dp, unit}`. "nothing depends on the
packing". -/
def packMeasurement (m : Measurement) : BitVec 31 :=
  (1 : BitVec 2) ++ signCode m.sign ++ m.digits[0] ++ m.digits[1] ++ m.digits[2] ++ m.digits[3] ++ m.digits[4] ++
    m.digits[5] ++ m.dp ++ unitCode m.unit

/-- The flat form R84 suggests for `IERR`: `{kind, ovr, raw[12], ..., raw[0]}`, with `ovr` in `OVR_W` bits. -/
def packDecodeError (ovrW : Nat) (e : DecodeError) : BitVec (2 + ovrW + 52) :=
  (2 : BitVec 2) ++ BitVec.ofNat ovrW e.ovr ++ frameWord e.raw

end Sys2Proof.Machine
end

