-- ==== Sys2Proof/Machine/Flags.lean ====
section
/-! DEFINITION. The function `DECODE` (42_decoder.md R150), the conditions computed from the state, none of them
stored (10_state.md R42), and the saturating increment (00_scope.md R11). -/

namespace Sys2Proof.Machine

/-- `DECODE(b, o)` (R150): the integrity gate (R151), the strict-digits option (R80), then sign, digits, point and unit
(R152 to R156). A pure function of its arguments and the fixed parameters (R158). -/
def decodeFrame (p : Config.Params) (b : FrameBuffer) (o : Nat) : DecodeResult :=
  if dpNibble p.layout b ≠ p.layout.dpLiteral then .ierr { raw := b, ovr := o }
  else if hasNonDecimalDigit p.layout b && p.strictDigits then .ierr { raw := b, ovr := o }
  else .meas
    { sign := signOf p.layout (readSlot b p.layout.idxSign)
      digits := digitsOf p.layout b
      dp := dpOf p.layout b
      unit := unitOf (readSlot b p.layout.idxUnit) }

/-- `frame_complete`: `clocks == N_BITS` (R42). -/
def frameComplete (s : State) : Bool := s.clocks == s.params.nBits

/-- `window_expired`: `elapsed + 1 >= IDLE_TICKS` (R42). -/
def windowExpired (s : State) : Bool := decide (s.elapsed.toNat + 1 ≥ s.params.idleTicks)

/-- `timed_out`: `elapsed + 1 > TIMEOUT_TICKS` (R42). -/
def timedOut (s : State) : Bool := decide (s.elapsed.toNat + 1 > s.params.timeoutTicks)

/-- `frame_valid`: `buf[IDX_DP] == DP_LITERAL` (`buf[11] == 2`) (R42). -/
def frameValid (s : State) : Bool := dpNibble s.params.layout s.buf == s.params.layout.dpLiteral

/-- Whether `STRICT_DIGITS` is on and rejects a digit nibble of the buffer (R80, decision D15). -/
def digitRejected (s : State) : Bool := hasNonDecimalDigit s.params.layout s.buf && s.params.strictDigits

/-- The conditions of a state, as the operation map reads them. -/
def conditionsOf (s : State) : Conditions where
  frameComplete := frameComplete s
  windowExpired := windowExpired s
  timedOut := timedOut s
  frameValid := frameValid s
  digitRejected := digitRejected s

/-- "`DECODE` succeeds" in a state, which selects between the two `TICK.AD.DONE` operations (R83, R125; log entry 20). -/
def decodeSucceeds (s : State) : Bool := (conditionsOf s).decodes

/-- `sat_inc_W(v)`: `v + 1` if `v < 2^W - 1`, else `v` (R11; decision D5). -/
def satInc (w v : Nat) : Nat := if v < 2 ^ w - 1 then v + 1 else v

end Sys2Proof.Machine
end

