-- ==== Sys2Proof/Machine/Ops.lean ====
section
/-! DEFINITION. The named operations over the buffer and the registers that the meanings share: the cleared buffer
and its canonical cells (20_memory.md R50), the Sampler's pointer (40_sampler.md R101), the clearing of the acquisition
state (R124), the report and the end of a request cycle (60_exceptions.md R180, R181), and taking the next arrival. -/

namespace Sys2Proof.Machine

/-- What an operation answers. -/
abbrev Result := Host.Outcome State Fault Refusal

/-! ### The buffer as memory -/

/-- The buffer of `n` slots with every slot 0 (R124, R200). -/
def clearedBuffer (n : Nat) : FrameBuffer := List.replicate n 0

/-- The buffer as a memory of cells, "4-bit, stored as one byte each" (R21), in canonical form: addresses rising, and no
cell for a slot that holds the reset value 0. The same storage under a second view (log entry 3). -/
def bufferCells (b : FrameBuffer) : List Host.Cell :=
  (List.range b.length).filterMap fun i =>
    if readSlot b i = 0 then none else some (i, (readSlot b i).setWidth 8)

/-- The canonical form of a memory of `n` cells: addresses strictly rising and below `n`, every byte a nonzero nibble. -/
abbrev Memory.wf (n : Nat) (m : List Host.Cell) : Prop :=
  (m.map Prod.fst).Pairwise (· < ·) ∧ ∀ c ∈ m, c.1 < n ∧ c.2 ≠ 0 ∧ c.2.toNat < 16

/-! ### The Sampler's pointer -/

/-- The slot that `byte_pos` names in a buffer of `n` slots; at `N_NIBBLES` (13) "it indexes no slot" (R26). -/
def slotIndex? (n p : Nat) : Option Nat := if p < n then some p else none

/-- `(v + (1 << bit_pos)) mod 2^NIBBLE_W`, the `mod 16` of R101 (decision D21). -/
def addToSlot (w : Nat) (v : Nibble) (k : BitPos) : Nibble := BitVec.ofNat 4 ((v.toNat + 2 ^ k.val) % 2 ^ w)

/-- `buf[i] <- (buf[i] + (1 << bit_pos)) mod 2^NIBBLE_W` (R101). -/
def addBit (w : Nat) (b : FrameBuffer) (i : Nat) (k : BitPos) : FrameBuffer :=
  writeSlot b i (addToSlot w (readSlot b i) k)

/-- `bit_pos` after a sample: back to 0 after `NIBBLE_W - 1` (3) (R101, R25). -/
def nextBitPos (w : Nat) (k : BitPos) : BitPos := if k.val + 1 = w then 0 else k + 1

/-- `byte_pos` after a sample at `bit_pos` (R101, R26). -/
def nextBytePos (w : Nat) (k : BitPos) (p : Nat) : Nat := if k.val + 1 = w then p + 1 else p

/-! ### Registers and reports -/

/-- The state with no report on `RPT`: a report is "valid only in the tick that emits it" (R41). -/
def quiet (s : State) : State := { s with rpt := none }

/-- One tick begins: it is counted, and nothing is reported yet (R120, R85). -/
def beginTick (s : State) : State := { s with rpt := none, ticks := s.ticks + 1 }

/-- `emit R`: hand the report to the reporting interface; "never blocks; changes no state of the block" (R11, R133). -/
def emit (r : Report) (s : State) : State := { s with rpt := some r, sink := s.sink ++ [(s.ticks, r)] }

/-- The end of a request cycle, the one operation that every condition with a report goes through: the report is
emitted, `state <- AwaitingWindow` and `elapsed <- 0` (R125, R126, R180, R181). There is no vector, no saved context
and no return instruction: recovery is "the ordinary continuation of the ring" (R184), which ends in
`clearAcquisition`. -/
def endCycle (r : Report) (s : State) : State := { emit r s with acq := .awaitingWindow, elapsed := 0 }

/-- The buffer and the four Acquisition Counters cleared, all at once (R124, R61). -/
def clearAcquisition (s : State) : State :=
  { s with buf := clearedBuffer s.params.nNibbles, clocks := 0, bitPos := 0, bytePos := 0, overrunCount := 0 }

/-- An operation answers only where the operation map selects it (R83); elsewhere no rule gives it a meaning and it is
refused by name (log entry 18). -/
def whenSelected (c : Bool) (r : Result) : Result := if c then r else .refused .notSelected

/-! ### What arrives next -/

/-- The operation byte that an event selects in a state (R83). -/
def selectorOf (e : Event) (s : State) : Byte := operationByte (conditionsOf s) e s.acq

/-- Two coincident events in the order they are taken: a free value (R177). -/
def orderOfPair (n : Nat) (x y : Event) : Event × Event := if Config.firstNamedFirst n then (x, y) else (y, x)

/-- Take the next arrival: the bytes that name its operation, and the state with the arrival taken; none where nothing
has arrived. Of two events that occur together the second stays, as an event of its own (R177: "two atomic operations
in either order"). -/
def fetch (s : State) : Option (List Byte × State) :=
  match s.stimulus with
  | [] => none
  | .event e :: rest => some ([selectorOf e s], { s with stimulus := rest })
  | .together x y :: rest =>
    some ([selectorOf (orderOfPair s.draws x y).1 s],
      { s with stimulus := .event (orderOfPair s.draws x y).2 :: rest, draws := s.draws + 1 })
  | .decoderCall v :: rest => some (bytesOfFunctionWord v, { s with stimulus := rest })

/-- The event that performs an operation; the three function rows have none (R83). -/
def eventOf : Instr → Option Event
  | .frameValid _ => none
  | .frameInvalid _ _ => none
  | .rst => some .rst
  | .clkSample d => some (.clkFall d)
  | .clkOverrun d => some (.clkFall d)
  | .tickAwHold => some .tick
  | .tickAwExpire => some .tick
  | .tickRs => some .tick
  | .tickAdDoneOk => some .tick
  | .tickAdDoneErr => some .tick
  | .tickAdTimeout => some .tick
  | .tickAdWait => some .tick
  | .decode _ _ => none

/-! ### Placing an operation -/

/-- The Sampler's registers made to say that a frame is complete, where they do not say so. -/
def withFrameComplete (s : State) : State :=
  if frameComplete s then s else { s with clocks := s.params.nBits, bitPos := 0, bytePos := s.params.nNibbles }

/-- The Sampler's registers made to say that no frame is complete, where they say that one is. -/
def withFrameIncomplete (s : State) : State :=
  if frameComplete s then clearAcquisition s else s

/-- The smallest valid frame (95_test_vectors.md 2.3 (t)). -/
def smallestValidBuffer (p : Config.Params) : FrameBuffer :=
  writeSlot (clearedBuffer p.nNibbles) p.layout.idxDp p.layout.dpLiteral

/-- A frame that fails the gate: its decimal-point nibble is the literal with the lowest bit turned over. -/
def gateFailingBuffer (p : Config.Params) : FrameBuffer :=
  writeSlot (clearedBuffer p.nNibbles) p.layout.idxDp (p.layout.dpLiteral ^^^ 1)

/-- The state in which the operation map selects an operation: each register that the selection reads is changed only
where it would select another one (log entry 28). -/
def armFor (i : Instr) (s : State) : State :=
  match i with
  | .frameValid _ => s
  | .frameInvalid _ _ => s
  | .decode _ _ => s
  | .rst => s
  | .clkSample _ => withFrameIncomplete s
  | .clkOverrun _ => withFrameComplete s
  | .tickAwHold => { s with acq := .awaitingWindow, elapsed := if windowExpired s then 0 else s.elapsed }
  | .tickAwExpire =>
    { s with
      acq := .awaitingWindow
      elapsed := if windowExpired s then s.elapsed else BitVec.ofNat 8 (s.params.idleTicks - 1) }
  | .tickRs => { s with acq := .requestSent }
  | .tickAdDoneOk =>
    { withFrameComplete s with
      acq := .awaitingData
      buf := if decodeSucceeds s then s.buf else smallestValidBuffer s.params }
  | .tickAdDoneErr =>
    { withFrameComplete s with
      acq := .awaitingData
      buf := if decodeSucceeds s then gateFailingBuffer s.params else s.buf }
  | .tickAdTimeout =>
    { withFrameIncomplete s with
      acq := .awaitingData
      elapsed := if timedOut s then s.elapsed else BitVec.ofNat 8 s.params.timeoutTicks }
  | .tickAdWait =>
    { withFrameIncomplete s with acq := .awaitingData, elapsed := if timedOut s then 0 else s.elapsed }

/-- A word of the opcode table placed as what arrives next: the event of its operation, in a state that selects it, or
the call of the Decoder. The selector that "cannot occur" (R83) places nothing; a function word with an unused tag is
placed and `step` refuses it. -/
def placeWord (s : State) (nbits w : Nat) : State :=
  match decodeTableWord nbits w with
  | some i =>
    match eventOf i with
    | some e => { armFor i s with stimulus := .event e :: s.stimulus }
    | none => if nbits ≤ 8 then s else { s with stimulus := .decoderCall (BitVec.ofNat 56 w) :: s.stimulus }
  | none => if nbits ≤ 8 then s else { s with stimulus := .decoderCall (BitVec.ofNat 56 w) :: s.stimulus }

end Sys2Proof.Machine
end

