-- ==== Sys2Proof/Machine/Decoder.lean ====
section
/-! DEFINITION. The Frame Decoder as operations of its own: the meanings of the table's two frame rows and of `DECODE`
(30_encoding.md R77, R78; 42_decoder.md R150). The Decoder is pure: only the model's own `decoderOut` shows the result,
and no report is emitted (R150, R63). -/

namespace Sys2Proof.Machine

/-- The Decoder applied to a buffer with the current overrun count (R150). -/
def callDecoder (b : FrameBuffer) (s : State) : State :=
  { quiet s with decoderOut := some (decodeFrame s.params b s.overrunCount) }

/-- `FRAME.VALID` (R77): `DECODE` of a frame whose decimal-point nibble is 2, the source's literal. -/
def execFrameValid (x : FrameFields) (s : State) : Result := .next (callDecoder (x.buffer Config.dpLiteralSource) s)

/-- `FRAME.INVALID` (R78): `DECODE` of a frame with another decimal-point nibble. -/
def execFrameInvalid (x : FrameFields) (p : Nibble) (s : State) : Result := .next (callDecoder (x.buffer p) s)

/-- `DECODE` (R150): the Decoder applied to any frame. -/
def execDecode (x : FrameFields) (p : Nibble) (s : State) : Result := .next (callDecoder (x.buffer p) s)

end Sys2Proof.Machine
end

