-- ==== Sys2Proof/Machine/Reset.lean ====
section
/-! DEFINITION. The meaning of `RST` (70_reset_and_hazards.md R200, decisions D3 and D22). -/

namespace Sys2Proof.Machine

/-- `RST` (R200): every item of R20 at its reset value, no report, in any state and at any time. The parameters, what is
still to arrive, what the reporting interface has received and the count of ordered coincidences are not items of the
block and stay; ticks are counted from here (log entry 10). -/
def execRst (s : State) : Result :=
  .next
    { clearAcquisition s with
      acq := .awaitingWindow
      elapsed := 0
      req := .high
      rpt := none
      decoderOut := none
      ticks := 0 }

end Sys2Proof.Machine
end

