-- ==== Sys2Proof/Machine/Sampler.lean ====
section
/-! DEFINITION. The Bit Sampler: the meanings of `CLK.SAMPLE` and `CLK.OVERRUN` (40_sampler.md R101, R102). Neither looks
at the Acquisition State (R103, decision D20). -/

namespace Sys2Proof.Machine

/-- `CLK.SAMPLE` (R101): one received bit is stored at the pointer and the pointer advances; every right-hand side is the
value before the event. With the data line low the slot is not written (corner case (a)). A `byte_pos` that names no
slot although `clocks` is not `N_BITS` is an address that does not exist (R51, V8). -/
def execClkSample (d : Level) (s : State) : Result :=
  whenSelected (!frameComplete s) <|
    match slotIndex? s.params.nNibbles s.bytePos with
    | none => .fault (.slotIndexOutOfRange s.bytePos)
    | some i =>
      .next
        { quiet s with
          clocks := s.clocks + 1
          buf := if d = .high then addBit s.params.nibbleW s.buf i s.bitPos else s.buf
          bitPos := nextBitPos s.params.nibbleW s.bitPos
          bytePos := nextBytePos s.params.nibbleW s.bitPos s.bytePos }

/-- `CLK.OVERRUN` (R102): the edge is counted, saturating, and dropped; its data level is ignored. -/
def execClkOverrun (_d : Level) (s : State) : Result :=
  whenSelected (frameComplete s) <|
    .next { quiet s with overrunCount := satInc s.params.ovrW s.overrunCount }

end Sys2Proof.Machine
end

