-- ==== Sys2Proof/Machine/Scheduler.lean ====
section
/-! DEFINITION. The Acquisition Scheduler: the meanings of the seven `TICK.*` operations (41_scheduler.md R122 to R127).
The test each is guarded by is its row's condition in the operation map (30_encoding.md R83). -/

namespace Sys2Proof.Machine

/-- `TICK.AW.HOLD` (R122): the request line is held idle and the tick is counted. -/
def execTickAwHold (s : State) : Result :=
  whenSelected (s.acq == .awaitingWindow && !windowExpired s) <|
    .next { beginTick s with req := .high, elapsed := s.elapsed + 1 }

/-- `TICK.AW.EXPIRE` (R123): the last tick of the idle window. -/
def execTickAwExpire (s : State) : Result :=
  whenSelected (s.acq == .awaitingWindow && windowExpired s) <|
    .next { beginTick s with req := .high, elapsed := 0, acq := .requestSent }

/-- `TICK.RS` (R124): the acquisition state is cleared and the request line falls, in one atomic operation. `elapsed` is
not changed (decision D19). -/
def execTickRs (s : State) : Result :=
  whenSelected (s.acq == .requestSent) <|
    .next { clearAcquisition (beginTick s) with req := .low, acq := .awaitingData }

/-- What both `TICK.AD.DONE` operations do (R125): the request line returns to idle, the Decoder is invoked on
`(buf, overrun_count)`, its result is emitted, and the cycle ends. The buffer and the counters are kept. -/
def completeFrame (s : State) : State :=
  let r := decodeFrame s.params s.buf s.overrunCount
  { endCycle r.toReport (beginTick s) with req := .high, decoderOut := some r }

/-- `TICK.AD.DONE.OK` (R125): a complete frame that decodes to a Measurement Result. -/
def execTickAdDoneOk (s : State) : Result :=
  whenSelected (s.acq == .awaitingData && frameComplete s && decodeSucceeds s) <| .next (completeFrame s)

/-- `TICK.AD.DONE.ERR` (R125, R181): a complete frame that decodes to a Decode Error, the condition
FrameIntegrityError (R172). -/
def execTickAdDoneErr (s : State) : Result :=
  whenSelected (s.acq == .awaitingData && frameComplete s && !decodeSucceeds s) <| .next (completeFrame s)

/-- `TICK.AD.TIMEOUT` (R126, R180), the condition Timeout (R171): `NODATA` is emitted and the cycle ends; `req` is not
written (decision D18). -/
def execTickAdTimeout (s : State) : Result :=
  whenSelected (s.acq == .awaitingData && !frameComplete s && timedOut s) <|
    .next (endCycle .nodata (beginTick s))

/-- `TICK.AD.WAIT` (R127): the tick is counted. -/
def execTickAdWait (s : State) : Result :=
  whenSelected (s.acq == .awaitingData && !frameComplete s && !timedOut s) <|
    .next { beginTick s with elapsed := s.elapsed + 1 }

end Sys2Proof.Machine
end

