-- ==== Sys2Proof/Machine/Dispatch.lean ====
section
/-! DEFINITION. `exec`: one arm per row of spec/opcode_table.json, each one call of that operation's meaning. -/

namespace Sys2Proof.Machine

def exec (i : Instr) (s : State) : Host.Outcome State Fault Refusal :=
  match i with
  | .frameValid x => Sys2Proof.Machine.execFrameValid x s
  | .frameInvalid x p => Sys2Proof.Machine.execFrameInvalid x p s
  | .rst => Sys2Proof.Machine.execRst s
  | .clkSample d => Sys2Proof.Machine.execClkSample d s
  | .clkOverrun d => Sys2Proof.Machine.execClkOverrun d s
  | .tickAwHold => Sys2Proof.Machine.execTickAwHold s
  | .tickAwExpire => Sys2Proof.Machine.execTickAwExpire s
  | .tickRs => Sys2Proof.Machine.execTickRs s
  | .tickAdDoneOk => Sys2Proof.Machine.execTickAdDoneOk s
  | .tickAdDoneErr => Sys2Proof.Machine.execTickAdDoneErr s
  | .tickAdTimeout => Sys2Proof.Machine.execTickAdTimeout s
  | .tickAdWait => Sys2Proof.Machine.execTickAdWait s
  | .decode x p => Sys2Proof.Machine.execDecode x p s

end Sys2Proof.Machine
end

