-- ==== Sys2Proof/Machine/Step.lean ====
section
/-! DEFINITION. One step of the machine: the next arrival is taken, its bytes are decoded, and the operation runs
(00_scope.md R7: "Each event is handled by exactly one operation, atomically"). -/

namespace Sys2Proof.Machine

/-- One step. Where nothing has arrived the block waits (R200: "the block waits for events"; R120: "The Scheduler does
nothing between ticks"). -/
def step (s : State) : Host.Outcome State Fault Refusal :=
  match fetch s with
  | none => .next (quiet s)
  | some (bytes, s') =>
    match decode bytes with
    | .ok i => exec i s'
    | .error r => .refused (.undecodable r)

/-- The reaction of the block to one event, whatever else is still to arrive: the operation that R83 selects. -/
def react (e : Event) (s : State) : Host.Outcome State Fault Refusal :=
  exec (operationOf (conditionsOf s) e s.acq) s

/-- The Sampler's own step: one falling edge (R190, R100). -/
def samplerStep (d : Level) (s : State) : Host.Outcome State Fault Refusal := react (.clkFall d) s

/-- The Scheduler's own step: one tick (R190, R120). -/
def schedulerStep (s : State) : Host.Outcome State Fault Refusal := react .tick s

/-- The reactions to a trace of events, the first event first (R64: "a sequence of atomic operations, one per event"). -/
def reactAll : List Event → State → Host.Outcome State Fault Refusal
  | [], s => .next s
  | e :: es, s =>
    match react e s with
    | .next t => reactAll es t
    | .fault r => .fault r
    | .refused r => .refused r

/-- A trace of bytes presented to the block after what is already to arrive (R85); none where a byte is no event. -/
def State.withTrace (s : State) (bytes : List Byte) : Option State :=
  match decodeTrace bytes with
  | .ok es => some { s with stimulus := s.stimulus ++ es.map Arrival.event }
  | .error _ => none

/-- The state with a word of the opcode table placed as what arrives next (log entry 28). -/
def State.withFetchWord (s : State) (nbits w : Nat) : State := placeWord s nbits w

end Sys2Proof.Machine
end

