-- ==== Sys2Proof/Safety.lean ====
section
/-! DEFINITION. The terms claims are stated in: which items two states share, the invariants of 10_state.md R33 to R36
with the bounds the parameters give, what the Sampler's registers say of the levels received (40_sampler.md R104), and
the premise `ConformingCaliper` (60_exceptions.md R195), which no rule of the block assumes. -/

namespace Sys2Proof.Machine

/-! ### Which items two states share -/

/-- The five items that belong to the Sampler (R28, R190): the buffer and the four Acquisition Counters. -/
abbrev sameSampler (s t : State) : Prop :=
  t.buf = s.buf ∧ t.clocks = s.clocks ∧ t.bitPos = s.bitPos ∧ t.bytePos = s.bytePos ∧ t.overrunCount = s.overrunCount

/-- The three items that are "private to the Scheduler" (R190). -/
abbrev sameScheduler (s t : State) : Prop := t.acq = s.acq ∧ t.elapsed = s.elapsed ∧ t.req = s.req

/-- All eight items of R20. -/
abbrev sameBlock (s t : State) : Prop := sameSampler s t ∧ sameScheduler s t

/-- What no operation changes: the parameters (R193), what is still to arrive, and the count of ordered pairs. -/
abbrev sameSurroundings (s t : State) : Prop :=
  t.params = s.params ∧ t.stimulus = s.stimulus ∧ t.draws = s.draws

/-- What the reporting interface sees: nothing was reported by the step from `s` to `t`. -/
abbrev nothingReported (s t : State) : Prop := t.rpt = none ∧ t.sink = s.sink

/-! ### Invariants -/

/-- A buffer of the geometry: `N_NIBBLES` slots of `NIBBLE_W` bits (R21, R22). -/
abbrev FitsGeometry (p : Config.Params) (b : FrameBuffer) : Prop :=
  b.length = p.nNibbles ∧ ∀ v ∈ b, v.toNat < 2 ^ p.nibbleW

/-- R33: every bit at or after `clocks` is zero. -/
abbrev UnwrittenBitsZero (s : State) : Prop :=
  ∀ k, k < s.params.nBits → s.clocks ≤ k → frameBit s.params s.buf k = false

/-- R34: the bounds of `elapsed` in each Acquisition State. -/
abbrev ElapsedBounded (s : State) : Prop :=
  (s.acq = .awaitingWindow → s.elapsed.toNat + 1 ≤ s.params.idleTicks) ∧
  (s.acq = .requestSent → s.elapsed = 0) ∧
  (s.acq = .awaitingData → s.elapsed.toNat ≤ s.params.timeoutTicks)

/-- R35: `clocks == NIBBLE_W * byte_pos + bit_pos`, with `clocks` at most `N_BITS` and `bit_pos` below `NIBBLE_W` (R24,
R25). -/
abbrev PointerAgrees (s : State) : Prop :=
  s.clocks = s.params.nibbleW * s.bytePos + s.bitPos.val ∧ s.clocks ≤ s.params.nBits ∧
  s.bitPos.val < s.params.nibbleW

/-- R36: overrun implies completion. -/
abbrev OverrunMeansComplete (s : State) : Prop := 0 < s.overrunCount → s.clocks = s.params.nBits

/-- R27: `overrun_count` fits its `OVR_W` bits. -/
abbrev OverrunFits (s : State) : Prop := s.overrunCount < 2 ^ s.params.ovrW

/-- R131: the request line is low while data is awaited and high before a request; it may be low in AwaitingWindow only
before the window's first tick (R206). -/
abbrev RequestLineFollows (s : State) : Prop :=
  (s.acq = .awaitingData → s.req = .low) ∧ (s.acq = .requestSent → s.req = .high) ∧
  (s.acq = .awaitingWindow → s.elapsed ≠ 0 → s.req = .high)

/-- The invariants of the block: R22 and R33 to R36, with the parameter constraints they rest on and the request
line's. -/
structure BlockInvariant (s : State) : Prop where
  params : s.params.wf = true
  fits : FitsGeometry s.params s.buf
  unwritten : UnwrittenBitsZero s
  elapsed : ElapsedBounded s
  pointer : PointerAgrees s
  overrun : OverrunMeansComplete s
  overrunFits : OverrunFits s
  request : RequestLineFollows s

/-! ### The levels received -/

/-- What R104 says of the Sampler's registers after the levels `ds`, in order, since they were last cleared. -/
structure Packed (ds : List Level) (s : State) : Prop where
  clocks : s.clocks = min ds.length s.params.nBits
  bytePos : s.bytePos = s.clocks / s.params.nibbleW
  bitPos : s.bitPos.val = s.clocks % s.params.nibbleW
  bits : ∀ k, k < s.params.nBits → frameBit s.params s.buf k = (ds.getD k .low).bit
  fits : FitsGeometry s.params s.buf
  overruns : s.overrunCount = min (ds.length - s.params.nBits) (2 ^ s.params.ovrW - 1)

/-- The levels received since the acquisition state was last cleared, after one more event in state `s` (R124, R200). -/
def history (e : Event) (s : State) (ds : List Level) : List Level :=
  match e with
  | .rst => []
  | .tick => if s.acq = .requestSent then [] else ds
  | .clkFall d => ds ++ [d]

/-- A report is owed while a request is out (R133). -/
def owed (s : State) : Nat := if s.acq = .awaitingData then 1 else 0

/-- How many requests a trace makes from a state: its ticks of RequestSent, each of which performs `TICK.RS` (R124). -/
def requestsIn : List Event → State → Nat
  | [], _ => 0
  | e :: es, s =>
    (if e = .tick ∧ s.acq = .requestSent then 1 else 0) +
      match react e s with
      | .next t => requestsIn es t
      | .fault _ => 0
      | .refused _ => 0

/-! ### The conforming caliper -/

/-- R195 (d): the decimal-point nibble is `DP_LITERAL` (2), the sign nibble is 0x0 or `SIGN_NEG`, every digit is 0 to 9. -/
abbrev ConformingFrame (p : Config.Params) (b : FrameBuffer) : Prop :=
  FitsGeometry p b ∧ readSlot b p.layout.idxDp = p.layout.dpLiteral ∧
  (readSlot b p.layout.idxSign = 0 ∨ readSlot b p.layout.idxSign = p.layout.signNeg) ∧
  ∀ n ∈ (digitsOf p.layout b).toList, n.toNat ≤ 9

/-- R195 (a) to (d) of a whole trace: clock edges come only in answer to a request; every request is answered by exactly
`N_BITS` (52) of them, before the next request and before the trace ends; and their levels are the bits of one conforming
frame, in order. `pending` is what the caliper still owes. No reset in the middle: the premise says nothing of it (log
entry 24). -/
def ConformingCaliper : List Level → List Event → State → Prop
  | pending, [], _ => pending = []
  | _, .rst :: _, _ => False
  | pending, .clkFall d :: es, s =>
    ∃ rest, pending = d :: rest ∧ ∀ t, react (.clkFall d) s = .next t → ConformingCaliper rest es t
  | pending, .tick :: es, s =>
    if s.acq = .requestSent then
      pending = [] ∧
        ∃ b, ConformingFrame s.params b ∧
          ∀ t, react .tick s = .next t → ConformingCaliper (frameLevels s.params b) es t
    else ∀ t, react .tick s = .next t → ConformingCaliper pending es t

/-- R195: "a tick period long enough for the 52 edges to arrive within 251 ticks": no tick finds a frame incomplete when
the time is up. -/
def Punctual : List Event → State → Prop
  | [], _ => True
  | e :: es, s =>
    (e = .tick → s.acq = .awaitingData → frameComplete s = false → timedOut s = false) ∧
      ∀ t, react e s = .next t → Punctual es t

/-- A report that is a Measurement Result. -/
def Report.isMeas : Report → Bool
  | .meas _ => true
  | .ierr _ => false
  | .nodata => false

end Sys2Proof.Machine
end

