-- ==== Sys2Proof/Certificates/Slice0/Obligations.lean ====
section
/-! DEFINITION. The statements for the provers, from the numbered rules of spec/. A statement whose docstring names a
decision (D<n>) rests on a choice of the spec's own or of this model's, and its basis is `derived`. -/

open Sys2Proof Sys2Proof.Machine

/-! ### Reset -/

/-- The eight items after reset (the values of 10_state.md section 10; decision D3 but for `state`, log entry 9). -/
def Obligations.ResetState : Prop :=
  State.reset.buf = [0, 0, 0, 0, 0, 0, 0, 0, 0, 0, 0, 0, 0] ∧ State.reset.clocks = 0 ∧ State.reset.bitPos = 0 ∧
  State.reset.bytePos = 0 ∧ State.reset.overrunCount = 0 ∧ State.reset.acq = .awaitingWindow ∧ State.reset.elapsed = 0 ∧ State.reset.req = .high

/-- The state after reset meets the invariants R22 and R33 to R36 (decision D3). -/
def Obligations.ResetMeetsInvariants : Prop := BlockInvariant State.reset

/-- `RST`, from any state: every item at its reset value, the buffer with its `N_NIBBLES` (13) slots 0, no report; what is
not the block's stays (decisions D3, D22, log entry 10). -/
def Obligations.RstResult : Prop :=
  ∀ s : State, ∃ t, exec .rst s = .next t ∧
    sameBlock { State.reset with buf := List.replicate s.params.nNibbles 0 } t ∧ nothingReported s t ∧
    sameSurroundings s t ∧ t.decoderOut = none ∧ t.ticks = 0

/-! ### The step and the encodings -/

/-- A step runs the operation that the arrival decodes to: for any bytes fetched, and for an event the operation that the
map of R83 selects in this state. Two clauses are the model's choice: a call of the Decoder as an arrival of its own (log
entry 5; R83 says that `DECODE` is not an event), and the step that waits where nothing has arrived (log entry 1). -/
def Obligations.StepRunsDecodedOperation : Prop :=
  ∀ s : State,
    (∀ bytes s' i, fetch s = some (bytes, s') → decode bytes = .ok i → step s = exec i s') ∧
    (∀ e rest, s.stimulus = .event e :: rest →
      step s = exec (operationOf (conditionsOf s) e s.acq) { s with stimulus := rest }) ∧
    (∀ v rest i, s.stimulus = .decoderCall v :: rest → decodeFunctionWord v = .ok i →
      step s = exec i { s with stimulus := rest }) ∧
    (s.stimulus = [] → step s = .next { s with rpt := none })

/-- Words written out from R71 and R83 decode to the operations they stand for: a few of each family. The four selector
bits and the 52 frame bits are the rules'; the condition bits above the selector in 0x18, 0x20, 0x92, 0x12 and 0x42 are
the model's choice (log entry 4), and so is the tag 1 in the last byte of the last word (log entry 5). -/
def Obligations.TableWordsDecode : Prop :=
  decode [0x04] = .ok .rst ∧ decode [0x08] = .ok (.clkSample .low) ∧ decode [0x0C] = .ok (.clkSample .high) ∧
  decode [0x18] = .ok (.clkOverrun .low) ∧ decode [0x00] = .ok .tickAwHold ∧ decode [0x20] = .ok .tickAwExpire ∧
  decode [0x01] = .ok .tickRs ∧ decode [0x92] = .ok .tickAdDoneOk ∧ decode [0x12] = .ok .tickAdDoneErr ∧
  decode [0x42] = .ok .tickAdTimeout ∧ decode [0x02] = .ok .tickAdWait ∧
  decode [0x03] = .error .stateCodeThree ∧
  decode [0xFF, 0xFF, 0x08, 0x21, 0x43, 0x25, 0x00] = .ok (.frameValid ⟨0xFFFF, 8, 0, 1, 2, 3, 4, 5, 0⟩) ∧
  decode [0x00, 0x00, 0x10, 0x32, 0x54, 0x56, 0x00] = .ok (.frameInvalid ⟨0, 0, 1, 2, 3, 4, 5, 6, 0⟩ 5) ∧
  decode [0x00, 0x00, 0x10, 0x32, 0x54, 0x26, 0x10] = .ok (.decode ⟨0, 0, 1, 2, 3, 4, 5, 6, 0⟩ 2)

/-- For every well-formed operation, decoding its encoding gives it back, every operand at every value. -/
def Obligations.DecodeEncodeRoundTrip : Prop := ∀ i : Instr, i.wellFormed = true → decode (encode i) = .ok i

/-- Whatever bytes the decoder accepts, the operation is well-formed and its canonical bytes decode to it too. -/
def Obligations.DecodedOperationsAreWellFormed : Prop :=
  ∀ bytes i, decode bytes = .ok i → i.wellFormed = true ∧ decode (encode i) = .ok i

/-- The encoder against the opcode table: every event row's selector under its mask is its match, and a frame word
passes the selector of a valid frame exactly when its decimal-point nibble is 2. -/
def Obligations.EncodingsMatchTheTable : Prop :=
  (∀ i : Instr, ∀ b : Byte, encode i = [b] →
    match i with
    | .rst => b &&& 0x0C = 0x04
    | .clkSample d => b &&& 0x08 = 0x08 ∧ b.getLsbD 2 = d.bit
    | .clkOverrun d => b &&& 0x08 = 0x08 ∧ b.getLsbD 2 = d.bit
    | .tickAwHold => b &&& 0x0F = 0
    | .tickAwExpire => b &&& 0x0F = 0
    | .tickRs => b &&& 0x0F = 1
    | .tickAdDoneOk => b &&& 0x0F = 2
    | .tickAdDoneErr => b &&& 0x0F = 2
    | .tickAdTimeout => b &&& 0x0F = 2
    | .tickAdWait => b &&& 0x0F = 2
    | .frameValid _ => False
    | .frameInvalid _ _ => False
    | .decode _ _ => False) ∧
  (∀ (x : FrameFields) (p : Nibble), x.word p &&& 0x0F00000000000 = 0x0200000000000 ↔ p = 2)

/-- R71: each field of the frame stands at the nibble index and at the bits of `W` that the table of R71 gives, and the
frame word and the fields say the same. -/
def Obligations.FrameFieldLayout : Prop :=
  (∀ (x : FrameFields) (p : Nibble),
    (x.buffer p).length = 13 ∧
    readSlot (x.buffer p) 0 = x.h.extractLsb' 0 4 ∧ readSlot (x.buffer p) 1 = x.h.extractLsb' 4 4 ∧
    readSlot (x.buffer p) 2 = x.h.extractLsb' 8 4 ∧ readSlot (x.buffer p) 3 = x.h.extractLsb' 12 4 ∧
    readSlot (x.buffer p) 4 = x.s ∧ readSlot (x.buffer p) 5 = x.a ∧ readSlot (x.buffer p) 6 = x.b ∧
    readSlot (x.buffer p) 7 = x.c ∧ readSlot (x.buffer p) 8 = x.d ∧ readSlot (x.buffer p) 9 = x.e ∧
    readSlot (x.buffer p) 10 = x.f ∧ readSlot (x.buffer p) 11 = p ∧ readSlot (x.buffer p) 12 = x.u) ∧
  (∀ (x : FrameFields) (p : Nibble),
    (x.word p).extractLsb' 0 16 = x.h ∧ (x.word p).extractLsb' 16 4 = x.s ∧ (x.word p).extractLsb' 20 4 = x.a ∧
    (x.word p).extractLsb' 24 4 = x.b ∧ (x.word p).extractLsb' 28 4 = x.c ∧ (x.word p).extractLsb' 32 4 = x.d ∧
    (x.word p).extractLsb' 36 4 = x.e ∧ (x.word p).extractLsb' 40 4 = x.f ∧ (x.word p).extractLsb' 44 4 = p ∧
    (x.word p).extractLsb' 48 4 = x.u) ∧
  (∀ w : BitVec 52, (FrameFields.ofWord w).word (dpOfWord w) = w ∧
    (FrameFields.ofWord w).buffer (dpOfWord w) = bufferOfWord w)

/-- R52 and R53, at the source's geometry of 13 slots: bit `k` of the frame word is bit `k mod 4` of slot `k div 4`, and
buffer and word determine each other. -/
def Obligations.FrameWordBits : Prop :=
  (∀ (b : FrameBuffer) (k : Fin 52), (frameWord b).getLsbD k.val = frameBit Config.Params.source b k.val) ∧
  (∀ b : FrameBuffer, b.length = 13 → bufferOfWord (frameWord b) = b) ∧ (∀ w : BitVec 52, frameWord (bufferOfWord w) = w)

/-- R85: a trace and its bytes determine each other (decision D12; a byte above 0x03 is rejected, log entry 6). -/
def Obligations.TraceBytesRoundTrip : Prop :=
  (∀ es : List Event, decodeTrace (encodeTrace es) = .ok es) ∧
  (∀ bytes es, decodeTrace bytes = .ok es → encodeTrace es = bytes)

/-- A word of the opcode table placed by `withFetchWord` is what the next step runs, in a state armed for it; the
parameters must leave the operation a way to be selected (log entry 28). -/
def Obligations.PlacedWordRunsNext : Prop :=
  ∀ (s : State) (nbits w : Nat) (i : Instr), s.params.wf = true → 2 ≤ s.params.idleTicks → 1 ≤ s.params.timeoutTicks →
    decodeTableWord nbits w = some i → step (s.withFetchWord nbits w) = exec i (armFor i s)

/-- A function word with an unused tag is refused by name (log entry 5). -/
def Obligations.UnusedFunctionTagRefused : Prop :=
  ∀ (s : State) (v : BitVec 56) (rest : List Arrival), s.stimulus = .decoderCall v :: rest →
    2 ≤ (v.extractLsb' 52 4).toNat → step s = .refused (.undecodable (.functionTag (v.extractLsb' 52 4)))

/-! ### The Bit Sampler -/

/-- R100 and R103 (decision D20): a falling edge performs `CLK.OVERRUN` if `clocks == N_BITS` (52) before the event and
`CLK.SAMPLE` otherwise, in every Acquisition State; it is what a step with that edge next does. -/
def Obligations.EdgeSelectsSampleOrOverrun : Prop :=
  ∀ (d : Level) (s : State) (rest : List Arrival), s.stimulus = .event (.clkFall d) :: rest →
    (s.clocks = s.params.nBits → step s = exec (.clkOverrun d) { s with stimulus := rest }) ∧
    (s.clocks ≠ s.params.nBits → step s = exec (.clkSample d) { s with stimulus := rest })

/-- R101: the result of `CLK.SAMPLE` at a slot, in every Acquisition State and for every geometry (by default `N_BITS` 52,
`N_NIBBLES` 13, `NIBBLE_W` 4), with its corner cases: with the data line low nothing is written; the addition equals a
bitwise OR where the addressed bit is zero, as R33 has it; the last sample of a frame leaves the pointer at
(`N_NIBBLES`, 0). -/
def Obligations.ClkSampleResult : Prop :=
  ∀ (d : Level) (s : State), s.params.wf = true → s.buf.length = s.params.nNibbles → s.clocks ≠ s.params.nBits →
    s.bytePos < s.params.nNibbles → s.bitPos.val < s.params.nibbleW →
    ∃ t, exec (.clkSample d) s = .next t ∧
      t.clocks = s.clocks + 1 ∧
      (d = .high → t.buf = s.buf.set s.bytePos (readSlot t.buf s.bytePos) ∧
        (readSlot t.buf s.bytePos).toNat =
          ((readSlot s.buf s.bytePos).toNat + 2 ^ s.bitPos.val) % 2 ^ s.params.nibbleW) ∧
      (d = .low → t.buf = s.buf) ∧
      (s.bitPos.val + 1 = s.params.nibbleW → t.bitPos.val = 0 ∧ t.bytePos = s.bytePos + 1) ∧
      (s.bitPos.val + 1 ≠ s.params.nibbleW → t.bitPos.val = s.bitPos.val + 1 ∧ t.bytePos = s.bytePos) ∧
      t.overrunCount = s.overrunCount ∧ sameScheduler s t ∧ nothingReported s t ∧ sameSurroundings s t ∧
      t.ticks = s.ticks ∧ t.decoderOut = s.decoderOut ∧
      (s.clocks + 1 = s.params.nBits → PointerAgrees s →
        t.clocks = s.params.nBits ∧ t.bitPos.val = 0 ∧ t.bytePos = s.params.nNibbles) ∧
      (d = .high → FitsGeometry s.params s.buf → UnwrittenBitsZero s → PointerAgrees s →
        readSlot t.buf s.bytePos = readSlot s.buf s.bytePos ||| ((1 : Nibble) <<< s.bitPos.val))

/-- `byte_pos` 13 (`N_NIBBLES`) and above indexes no slot: a sample there, which R35 excludes, stops by name (log entry
19). -/
def Obligations.SampleOutsideTheBufferFaults : Prop :=
  ∀ (d : Level) (s : State), s.clocks ≠ s.params.nBits → s.params.nNibbles ≤ s.bytePos →
    exec (.clkSample d) s = .fault (.slotIndexOutOfRange s.bytePos)

/-- R102: the result of `CLK.OVERRUN`, whatever the data level and the Acquisition State: the count rises by one, and
stops at `2^OVR_W - 1` (decision D5, log entry 11); nothing else changes and nothing is reported. -/
def Obligations.ClkOverrunResult : Prop :=
  ∀ (d : Level) (s : State), s.clocks = s.params.nBits →
    (s.overrunCount < 2 ^ s.params.ovrW - 1 →
      exec (.clkOverrun d) s = .next { s with rpt := none, overrunCount := s.overrunCount + 1 }) ∧
    (2 ^ s.params.ovrW - 1 ≤ s.overrunCount → exec (.clkOverrun d) s = .next { s with rpt := none })

/-- The frame of the Sampler's two operations (40_sampler.md section 4): no Scheduler item, no report, no slot but the
one that `byte_pos` names, and that one only by a sample of a high level; `overrun_count` only by `CLK.OVERRUN`. -/
def Obligations.SamplerFrame : Prop :=
  ∀ (d : Level) (s t : State),
    (exec (.clkSample d) s = .next t →
      sameScheduler s t ∧ nothingReported s t ∧ sameSurroundings s t ∧ t.ticks = s.ticks ∧
      t.decoderOut = s.decoderOut ∧ t.overrunCount = s.overrunCount ∧
      t.buf.length = s.buf.length ∧
      (∀ i, slotIndex? s.params.nNibbles s.bytePos = some i → ∀ j, j ≠ i → readSlot t.buf j = readSlot s.buf j) ∧
      (∀ i, slotIndex? s.params.nNibbles s.bytePos = some i → ∀ k : Nat, k < 4 → k ≠ s.bitPos.val →
        s.params.wf = true → FitsGeometry s.params s.buf → UnwrittenBitsZero s → PointerAgrees s →
        (readSlot t.buf i).getLsbD k = (readSlot s.buf i).getLsbD k) ∧
      (d = .low → t.buf = s.buf)) ∧
    (exec (.clkOverrun d) s = .next t →
      sameScheduler s t ∧ nothingReported s t ∧ sameSurroundings s t ∧ t.ticks = s.ticks ∧
      t.decoderOut = s.decoderOut ∧ t.buf = s.buf ∧ t.clocks = s.clocks ∧ t.bitPos = s.bitPos ∧ t.bytePos = s.bytePos)

/-- The Sampler looks at `clocks` and nothing of the Scheduler: with another Acquisition State, elapsed count and
request level an edge does the same (decision D20). -/
def Obligations.SamplerIgnoresTheScheduler : Prop :=
  ∀ (d : Level) (s t : State) (a : AcquisitionState) (e : BitVec 8) (r : Level),
    react (.clkFall d) s = .next t →
      react (.clkFall d) { s with acq := a, elapsed := e, req := r } =
        .next { t with acq := a, elapsed := e, req := r }

/-- The packing law of 40_sampler.md section 4: after `n` edges from a state that has received `ds`, the Sampler's
registers say exactly that the levels `ds ++ levels` were received, saturating overruns included (decision D5), and no
Scheduler item has moved. -/
def Obligations.EdgesArePackedInOrder : Prop :=
  ∀ (levels ds : List Level) (s : State), s.params.wf = true → Packed ds s →
    ∃ t, reactAll (levels.map Event.clkFall) s = .next t ∧ Packed (ds ++ levels) t ∧ sameScheduler s t ∧
      t.sink = s.sink ∧ t.params = s.params

/-- Whatever events interleave, the Sampler's registers say which levels were received since the last `TICK.RS` or
`RST`: one more event keeps the refinement, and reset starts it. That the count of overruns saturates is decision D5 (log
entry 11), that an edge counts in every Acquisition State decision D20 (log entry 16), and that the tick of RequestSent
clears decision D9 (log entry 14). -/
def Obligations.SamplerTracksTheLevelsReceived : Prop :=
  Packed [] State.reset ∧
  ∀ (ds : List Level) (e : Event) (s : State), s.params.wf = true → Packed ds s →
    ∃ t, react e s = .next t ∧ Packed (history e s ds) t ∧ t.params = s.params

/-- The frozen buffer of 10_state.md section 7: once `clocks` is `N_BITS` (52), no event but `RST` and the tick of
RequestSent changes the buffer, `clocks`, `bit_pos` or `byte_pos`. -/
def Obligations.CompleteFrameIsFrozen : Prop :=
  ∀ (e : Event) (s t : State), s.clocks = s.params.nBits → react e s = .next t → e ≠ .rst →
    (e = .tick → s.acq ≠ .requestSent) →
    t.buf = s.buf ∧ t.clocks = s.clocks ∧ t.bitPos = s.bitPos ∧ t.bytePos = s.bytePos

/-- `overrun_count` never falls but by `RST` and the tick of RequestSent (S5: "monotonically"; decision D5). -/
def Obligations.OverrunCountNeverFallsWithinACycle : Prop :=
  ∀ (e : Event) (s t : State), react e s = .next t → e ≠ .rst → (e = .tick → s.acq ≠ .requestSent) →
    s.overrunCount ≤ t.overrunCount ∧ (OverrunFits s → s.params.wf = true → OverrunFits t)

/-- Extra edges before a frame (70_reset_and_hazards.md H4): `m` levels ahead of a frame shift its bits up by `m`, and
its last `m` bits count as overruns, saturating (decision D5). -/
def Obligations.LeadingEdgesShiftTheFrame : Prop :=
  ∀ (extra : List Level) (b : FrameBuffer) (s : State), s.params.wf = true → Packed [] s →
    extra.length ≤ s.params.nBits →
    ∃ t, reactAll (extra.map Event.clkFall ++ frameEvents s.params b) s = .next t ∧ t.clocks = s.params.nBits ∧
      t.overrunCount = min extra.length (2 ^ s.params.ovrW - 1) ∧
      ∀ k, k < s.params.nBits →
        (k < extra.length → frameBit s.params t.buf k = (extra.getD k .low).bit) ∧
        (∀ j, k = extra.length + j → frameBit s.params t.buf k = frameBit s.params b j)

/-! ### The Acquisition Scheduler -/

/-- R122: the result of `TICK.AW.HOLD` where the window has not expired (decision D7 says when it has). -/
def Obligations.TickAwHoldResult : Prop :=
  ∀ s : State, s.params.wf = true → s.acq = .awaitingWindow → s.elapsed.toNat + 1 < s.params.idleTicks →
    ∃ t, exec .tickAwHold s = .next t ∧
      t = { s with req := .high, elapsed := t.elapsed, rpt := none, ticks := s.ticks + 1 } ∧
      t.elapsed.toNat = s.elapsed.toNat + 1

/-- The result of `TICK.AW.EXPIRE`: it is the tick at which `elapsed + 1` reaches `IDLE_TICKS` (decision D7). -/
def Obligations.TickAwExpireResult : Prop :=
  ∀ s : State, s.acq = .awaitingWindow → s.elapsed.toNat + 1 ≥ s.params.idleTicks →
    exec .tickAwExpire s =
      .next { s with req := .high, elapsed := 0, acq := .requestSent, rpt := none, ticks := s.ticks + 1 }

/-- The result of `TICK.RS`: the clearing of all `N_NIBBLES` (13) slots and the falling request line in one operation,
`elapsed` unchanged (decisions D9, D19). -/
def Obligations.TickRsResult : Prop :=
  ∀ s : State, s.acq = .requestSent →
    exec .tickRs s =
      .next { s with
        buf := List.replicate s.params.nNibbles 0, clocks := 0, bitPos := 0, bytePos := 0, overrunCount := 0
        req := .low, acq := .awaitingData, rpt := none, ticks := s.ticks + 1 }

/-- The result of both `TICK.AD.DONE` operations, selected by what `DECODE(buf, overrun_count)` returns: the request line
returns to idle, the result is emitted, the cycle ends, and the buffer and the counters keep their values, all as R125 has
it. That the result also shows in `decoderOut` is the model's choice (log entry 29), and so are the tick index and the list
`sink` that receives the report (log entry 22). -/
def Obligations.TickAdDoneResult : Prop :=
  ∀ s : State, s.acq = .awaitingData → s.clocks = s.params.nBits →
    (∀ m, decodeFrame s.params s.buf s.overrunCount = .meas m →
      exec .tickAdDoneOk s =
        .next { s with
          req := .high, acq := .awaitingWindow, elapsed := 0, rpt := some (.meas m), ticks := s.ticks + 1,
          sink := s.sink ++ [(s.ticks + 1, .meas m)], decoderOut := some (.meas m) }) ∧
    (∀ er, decodeFrame s.params s.buf s.overrunCount = .ierr er →
      exec .tickAdDoneErr s =
        .next { s with
          req := .high, acq := .awaitingWindow, elapsed := 0, rpt := some (.ierr er), ticks := s.ticks + 1,
          sink := s.sink ++ [(s.ticks + 1, .ierr er)], decoderOut := some (.ierr er) })

/-- The result of `TICK.AD.TIMEOUT`: one `NODATA`, `req` not written, the partial frame kept (decisions D8, D18). -/
def Obligations.TickAdTimeoutResult : Prop :=
  ∀ s : State, s.acq = .awaitingData → s.clocks ≠ s.params.nBits → s.elapsed.toNat + 1 > s.params.timeoutTicks →
    exec .tickAdTimeout s =
      .next { s with
        acq := .awaitingWindow, elapsed := 0, rpt := some .nodata, ticks := s.ticks + 1,
        sink := s.sink ++ [(s.ticks + 1, .nodata)] }

/-- The result of `TICK.AD.WAIT` (decision D8). -/
def Obligations.TickAdWaitResult : Prop :=
  ∀ s : State, s.params.wf = true → s.acq = .awaitingData → s.clocks ≠ s.params.nBits →
    s.elapsed.toNat + 1 ≤ s.params.timeoutTicks →
    ∃ t, exec .tickAdWait s = .next t ∧
      t = { s with elapsed := t.elapsed, rpt := none, ticks := s.ticks + 1 } ∧
      t.elapsed.toNat = s.elapsed.toNat + 1

/-- R42: the conditions computed from the state select between the operations. `frame_valid` alone selects between the two
`TICK.AD.DONE` operations at the default; with `STRICT_DIGITS` on a frame that passes the gate and has a digit above 9
fails too (R80, R83; decision D15, log entry 20). The exact ticks are decisions D7 and D8. -/
def Obligations.ConditionsSelectOperations : Prop :=
  (∀ (d : Level) (s : State),
    (s.clocks = s.params.nBits → samplerStep d s = exec (.clkOverrun d) s) ∧
    (s.clocks ≠ s.params.nBits → samplerStep d s = exec (.clkSample d) s)) ∧
  (∀ s : State, s.acq = .awaitingWindow →
    (s.elapsed.toNat + 1 ≥ s.params.idleTicks → schedulerStep s = exec .tickAwExpire s) ∧
    (s.elapsed.toNat + 1 < s.params.idleTicks → schedulerStep s = exec .tickAwHold s)) ∧
  (∀ s : State, s.acq = .awaitingData → s.clocks ≠ s.params.nBits →
    (s.elapsed.toNat + 1 > s.params.timeoutTicks → schedulerStep s = exec .tickAdTimeout s) ∧
    (s.elapsed.toNat + 1 ≤ s.params.timeoutTicks → schedulerStep s = exec .tickAdWait s)) ∧
  (∀ s : State, s.acq = .awaitingData → s.clocks = s.params.nBits → s.params.strictDigits = false →
    (readSlot s.buf s.params.layout.idxDp = s.params.layout.dpLiteral → schedulerStep s = exec .tickAdDoneOk s) ∧
    (readSlot s.buf s.params.layout.idxDp ≠ s.params.layout.dpLiteral → schedulerStep s = exec .tickAdDoneErr s)) ∧
  (∀ s : State, s.acq = .awaitingData → s.clocks = s.params.nBits → s.params.strictDigits = true →
    s.params.wf = true →
    ((readSlot s.buf s.params.layout.idxDp = s.params.layout.dpLiteral ∧
        ∀ i, s.params.layout.idxDigFirst ≤ i → i ≤ s.params.layout.idxDigLast → (readSlot s.buf i).toNat ≤ 9) →
      schedulerStep s = exec .tickAdDoneOk s) ∧
    ((readSlot s.buf s.params.layout.idxDp ≠ s.params.layout.dpLiteral ∨
        ∃ i, s.params.layout.idxDigFirst ≤ i ∧ i ≤ s.params.layout.idxDigLast ∧ 9 < (readSlot s.buf i).toNat) →
      schedulerStep s = exec .tickAdDoneErr s))

/-- An operation that the map does not select in a state is refused by name, and only such a one is (log entry 18). -/
def Obligations.OnlySelectedOperationsAnswer : Prop :=
  ∀ (i : Instr) (e : Event) (s : State), eventOf i = some e →
    (exec i s = .refused .notSelected ↔ operationOf (conditionsOf s) e s.acq ≠ i)

/-- The frame of the `TICK` operations: none but `TICK.RS` touches a Sampler item; the request line is written by
AwaitingWindow's ticks, `TICK.RS` and completion only; only the three operations that report touch the sink, and only
completion shows a Decoder result. That `TICK.RS` keeps `elapsed` is decision D19 (log entry 14), that a timeout keeps
the request line decision D18 (log entry 15), and that completion shows its result in `decoderOut` the model's choice
(log entry 29). -/
def Obligations.SchedulerFrame : Prop :=
  ∀ (i : Instr) (s t : State), eventOf i = some .tick → exec i s = .next t →
    sameSurroundings s t ∧ t.ticks = s.ticks + 1 ∧
    (i ≠ .tickRs → sameSampler s t) ∧
    (i = .tickRs → t.elapsed = s.elapsed) ∧
    ((i = .tickAdTimeout ∨ i = .tickAdWait) → t.req = s.req) ∧
    ((i = .tickAwHold ∨ i = .tickAdWait) → t.acq = s.acq) ∧
    ((i = .tickAwHold ∨ i = .tickAwExpire ∨ i = .tickRs ∨ i = .tickAdWait) → nothingReported s t) ∧
    ((i ≠ .tickAdDoneOk ∧ i ≠ .tickAdDoneErr) → t.decoderOut = s.decoderOut)

/-- R128: with a complete frame on the tick at which the timeout would fire, the tick runs `TICK.AD.DONE.OK` or
`TICK.AD.DONE.ERR`: the frame is decoded, no `NODATA` is emitted, and one report is; no tick whatever emits more than
one. -/
def Obligations.CompletionBeatsTimeout : Prop :=
  (∀ s : State, s.acq = .awaitingData → s.clocks = s.params.nBits → s.elapsed.toNat + 1 > s.params.timeoutTicks →
    (schedulerStep s = exec .tickAdDoneOk s ∨ schedulerStep s = exec .tickAdDoneErr s) ∧
    ∃ t r, schedulerStep s = .next t ∧ t.req = .high ∧ t.acq = .awaitingWindow ∧ t.elapsed = 0 ∧
      t.rpt = some r ∧ r = (decodeFrame s.params s.buf s.overrunCount).toReport ∧ r ≠ .nodata ∧
      t.sink = s.sink ++ [(s.ticks + 1, r)]) ∧
  (∀ s t : State, schedulerStep s = .next t → ∃ new, t.sink = s.sink ++ new ∧ new.length ≤ 1)

/-- The transition table of 41_scheduler.md section 6: every reaction to an event is one of its rows, with the register
values and the report the row gives (decisions D7, D8, D9, D18, D19). -/
def Obligations.TransitionsFollowTheTable : Prop :=
  ∀ (e : Event) (s t : State), s.params.wf = true → react e s = .next t →
    (e = .rst ∧ t.acq = .awaitingWindow ∧ t.elapsed = 0 ∧ t.req = .high ∧ t.rpt = none) ∨
    (e = .tick ∧ s.acq = .awaitingWindow ∧ s.elapsed.toNat + 1 < s.params.idleTicks ∧ t.acq = .awaitingWindow ∧
      t.elapsed.toNat = s.elapsed.toNat + 1 ∧ t.req = .high ∧ t.rpt = none) ∨
    (e = .tick ∧ s.acq = .awaitingWindow ∧ s.elapsed.toNat + 1 ≥ s.params.idleTicks ∧ t.acq = .requestSent ∧
      t.elapsed = 0 ∧ t.req = .high ∧ t.rpt = none) ∨
    (e = .tick ∧ s.acq = .requestSent ∧ t.acq = .awaitingData ∧ t.elapsed = s.elapsed ∧ t.req = .low ∧ t.rpt = none) ∨
    (e = .tick ∧ s.acq = .awaitingData ∧ s.clocks = s.params.nBits ∧ t.acq = .awaitingWindow ∧ t.elapsed = 0 ∧
      t.req = .high ∧ t.rpt = some (decodeFrame s.params s.buf s.overrunCount).toReport) ∨
    (e = .tick ∧ s.acq = .awaitingData ∧ s.clocks ≠ s.params.nBits ∧ s.elapsed.toNat + 1 > s.params.timeoutTicks ∧
      t.acq = .awaitingWindow ∧ t.elapsed = 0 ∧ t.req = s.req ∧ t.rpt = some .nodata) ∨
    (e = .tick ∧ s.acq = .awaitingData ∧ s.clocks ≠ s.params.nBits ∧ s.elapsed.toNat + 1 ≤ s.params.timeoutTicks ∧
      t.acq = .awaitingData ∧ t.elapsed.toNat = s.elapsed.toNat + 1 ∧ t.req = s.req ∧ t.rpt = none) ∨
    ((∃ d, e = .clkFall d) ∧ t.acq = s.acq ∧ t.elapsed = s.elapsed ∧ t.req = s.req ∧ t.rpt = none)

/-- R133: a report is emitted only by a tick that ends a request cycle, at most one a tick, and exactly one for each
request: what has been reported and what is owed grow together by the requests made. -/
def Obligations.OneReportPerRequestCycle : Prop :=
  ∀ (e : Event) (s t : State), react e s = .next t →
    (t.rpt ≠ none ↔ e = .tick ∧ s.acq = .awaitingData ∧ t.acq = .awaitingWindow) ∧
    (t.rpt = none → t.sink = s.sink) ∧ (∀ r, t.rpt = some r → t.sink = s.sink ++ [(t.ticks, r)]) ∧
    (e ≠ .rst →
      t.sink.length + owed t = s.sink.length + owed s + (if e = .tick ∧ s.acq = .requestSent then 1 else 0))

/-- Over any trace without a reset, the reports made and owed grow by exactly the requests that the trace makes: every
request is answered by one report (41_scheduler.md section 7; 60_exceptions.md section 4). -/
def Obligations.ReportsMatchRequestsOverTraces : Prop :=
  ∀ (es : List Event) (s t : State), (∀ e ∈ es, e ≠ .rst) → reactAll es s = .next t →
    t.sink.length + owed t = s.sink.length + owed s + requestsIn es s

/-- R171, R172, R173, with the exact tick of `NODATA` as decision D8 has it (log entry 13) and the cause of an `IERR`
under `STRICT_DIGITS` as decision D15 has it (log entry 21): `NODATA` is emitted by a tick that finds no complete frame
when the time is up, and by nothing else; an `IERR` only by a tick that found `clocks == N_BITS` (52), with the 13 slots
and the count as they were at that tick; a `MEAS` only at such a tick too; an edge emits nothing and makes no transition, complete frame or not. -/
def Obligations.EachReportHasItsCause : Prop :=
  ∀ (e : Event) (s t : State), s.params.wf = true → react e s = .next t →
    (t.rpt = some .nodata ↔
      e = .tick ∧ s.acq = .awaitingData ∧ s.clocks ≠ s.params.nBits ∧
        s.elapsed.toNat + 1 > s.params.timeoutTicks) ∧
    (∀ er, t.rpt = some (.ierr er) →
      e = .tick ∧ s.acq = .awaitingData ∧ s.clocks = s.params.nBits ∧ er.raw = s.buf ∧ er.ovr = s.overrunCount ∧
        (readSlot s.buf s.params.layout.idxDp ≠ s.params.layout.dpLiteral ∨
          (s.params.strictDigits = true ∧ ∃ i : Nat, s.params.layout.idxDigFirst ≤ i ∧
            i ≤ s.params.layout.idxDigLast ∧ 9 < (readSlot s.buf i).toNat))) ∧
    (∀ m, t.rpt = some (.meas m) →
      e = .tick ∧ s.acq = .awaitingData ∧ s.clocks = s.params.nBits ∧
        readSlot s.buf s.params.layout.idxDp = s.params.layout.dpLiteral) ∧
    (∀ d, e = .clkFall d → t.rpt = none ∧ t.sink = s.sink ∧ t.acq = s.acq ∧ t.req = s.req)

/-- The request line: it falls only at the tick of RequestSent, and rises only at a reset, at a tick of AwaitingWindow
or at the completing tick (10_state.md section 5; decisions D2, D18). -/
def Obligations.RequestLineMovesOnlyWhereTheTableSays : Prop :=
  ∀ (e : Event) (s t : State), react e s = .next t → t.req ≠ s.req →
    (t.req = .low ∧ e = .tick ∧ s.acq = .requestSent) ∨
    (t.req = .high ∧
      (e = .rst ∨ (e = .tick ∧ s.acq = .awaitingWindow) ∨
        (e = .tick ∧ s.acq = .awaitingData ∧ s.clocks = s.params.nBits)))

/-- The idle window lasts exactly `IDLE_TICKS` ticks (decision D7): before the last of them the block is still in
AwaitingWindow with the ticks counted, the last enters RequestSent, and nothing is reported. -/
def Obligations.IdleWindowLastsIdleTicks : Prop :=
  ∀ (s : State), s.params.wf = true → s.acq = .awaitingWindow → s.elapsed = 0 →
    (∀ n, n < s.params.idleTicks →
      ∃ t, reactAll (List.replicate n .tick) s = .next t ∧ t.acq = .awaitingWindow ∧ t.elapsed.toNat = n ∧
        t.sink = s.sink ∧ sameSampler s t) ∧
    ∃ t, reactAll (List.replicate s.params.idleTicks .tick) s = .next t ∧ t.acq = .requestSent ∧ t.elapsed = 0 ∧
      t.req = .high ∧ t.sink = s.sink ∧ sameSampler s t

/-- With no edges the timeout fires on exactly the tick after `TIMEOUT_TICKS` ticks of AwaitingData (decision D8): none
before it reports, it reports `NODATA` once and leaves the request line as it was (D18). -/
def Obligations.SilentCaliperTimesOut : Prop :=
  ∀ (s : State), s.params.wf = true → s.acq = .awaitingData → s.elapsed = 0 → s.clocks ≠ s.params.nBits →
    (∀ n, n ≤ s.params.timeoutTicks →
      ∃ t, reactAll (List.replicate n .tick) s = .next t ∧ t.acq = .awaitingData ∧ t.elapsed.toNat = n ∧
        t.sink = s.sink) ∧
    ∃ t, reactAll (List.replicate (s.params.timeoutTicks + 1) .tick) s = .next t ∧ t.acq = .awaitingWindow ∧
      t.rpt = some .nodata ∧ t.sink = s.sink ++ [(s.ticks + s.params.timeoutTicks + 1, .nodata)] ∧ t.req = s.req ∧
      sameSampler s t

/-- Whatever edges come, and however they interleave, a request is reported on within `TIMEOUT_TICKS + 1` ticks:
progress does not extend the timeout (70_reset_and_hazards.md H12; decision D8). -/
def Obligations.EveryRequestIsReportedInTime : Prop :=
  ∀ (es : List Event) (s : State), BlockInvariant s → s.acq = .awaitingData → (∀ e ∈ es, e ≠ .rst) →
    s.params.timeoutTicks + 1 ≤ s.elapsed.toNat + es.count .tick →
    ∃ t, reactAll es s = .next t ∧ s.sink.length < t.sink.length

/-- The clearing of a new request erases every trace of the cycle before it, overruns included: two states that differ
in anything the Sampler holds are the same block after `TICK.RS` (60_exceptions.md section 5; C6). -/
def Obligations.RequestErasesThePreviousCycle : Prop :=
  ∀ (s₁ s₂ : State), s₁.params.nNibbles = s₂.params.nNibbles → s₁.acq = .requestSent → s₂.acq = .requestSent →
    s₁.elapsed = s₂.elapsed →
    ∃ t₁ t₂, schedulerStep s₁ = .next t₁ ∧ schedulerStep s₂ = .next t₂ ∧ sameBlock t₁ t₂

/-! ### The Frame Decoder -/

/-- R153, R155, R156: a frame with decimal-point nibble 2, in the nominal configuration, gives a Measurement Result with
exactly the six digit nibbles in order, two digits after the point, a unit, and a sign; the block is unchanged and
nothing is reported. (Every other layout and the strict check are in `DecodeResultOfAnyFrame`.) -/
def Obligations.FrameValidResult : Prop :=
  ∀ (x : FrameFields) (s : State), s.params.layout = Config.Layout.source → s.params.strictDigits = false →
    ∃ t m, exec (.frameValid x) s = .next t ∧ t.decoderOut = some (.meas m) ∧
      m.digits = #v[x.a, x.b, x.c, x.d, x.e, x.f] ∧ m.dp = 2 ∧
      (x.u = 0 → m.unit = .metric) ∧ (x.u ≠ 0 → m.unit = .imperial) ∧
      (x.s = 0 → m.sign = .positive) ∧ (x.s = 8 → m.sign = .negative) ∧
      sameBlock s t ∧ nothingReported s t

/-- The sign of a frame whose sign nibble is neither 0x0 nor 0x8 is the free value `SIGN_OTHER` of that nibble, and the
frame is accepted (decision D11): the statement holds for every such function. -/
def Obligations.UndefinedSignIsTheFreeValue : Prop :=
  ∀ (x : FrameFields) (s : State), s.params.layout = Config.Layout.source → s.params.strictDigits = false →
    x.s ≠ 0 → x.s ≠ 8 →
    ∃ t m, exec (.frameValid x) s = .next t ∧ t.decoderOut = some (.meas m) ∧ m.sign = Config.signOther x.s

/-- R78, R151, R157: a frame with any other decimal-point nibble (slot 11) gives a Decode Error with the 13 raw slots,
header included, and the current overrun count, never a partial result, with the strict check on or off; with it off
that is the only check: every frame with the nibble 2 gives a Measurement Result. -/
def Obligations.FrameInvalidResult : Prop :=
  (∀ (x : FrameFields) (p : Nibble) (s : State), s.params.layout.idxDp = 11 → s.params.layout.dpLiteral = 2 →
      p ≠ 2 →
    exec (.frameInvalid x p) s =
      .next { s with
        rpt := none
        decoderOut := some (.ierr
          { raw := [x.h.extractLsb' 0 4, x.h.extractLsb' 4 4, x.h.extractLsb' 8 4, x.h.extractLsb' 12 4, x.s, x.a,
              x.b, x.c, x.d, x.e, x.f, p, x.u]
            ovr := s.overrunCount }) }) ∧
  (∀ (x : FrameFields) (s : State), s.params.layout.idxDp = 11 → s.params.layout.dpLiteral = 2 →
      s.params.strictDigits = false →
    ∃ t m, exec (.frameValid x) s = .next t ∧ t.decoderOut = some (.meas m))

/-- `DECODE` of any frame under any layout of the fields (by default the sign in slot 4, the digits in slots 5 to 10, the
decimal-point nibble in slot 11, the unit in slot 12, `DP_LITERAL` 2, `SIGN_NEG` 8): the gate first, then the
strict-digits option (decision D15), and otherwise the assembled result; total, and the block is unchanged (42_decoder.md section 1). The row
`FRAME.VALID` or `FRAME.INVALID` of the same frame does the same, in every configuration. -/
def Obligations.DecodeResultOfAnyFrame : Prop :=
  ∀ (x : FrameFields) (p : Nibble) (s : State) (l : Config.Layout) (b : FrameBuffer), s.params.wf = true →
    s.params.layout = l → x.buffer p = b →
    ∃ t, exec (.decode x p) s = .next t ∧ t = { s with rpt := none, decoderOut := t.decoderOut } ∧
      ((readSlot b l.idxDp ≠ l.dpLiteral ∨ (s.params.strictDigits = true ∧
          ∃ i : Nat, l.idxDigFirst ≤ i ∧ i ≤ l.idxDigLast ∧ 9 < (readSlot b i).toNat)) →
        t.decoderOut = some (.ierr { raw := b, ovr := s.overrunCount })) ∧
      ((readSlot b l.idxDp = l.dpLiteral ∧ (s.params.strictDigits = true →
          ∀ i : Nat, l.idxDigFirst ≤ i → i ≤ l.idxDigLast → (readSlot b i).toNat ≤ 9)) →
        ∃ m, t.decoderOut = some (.meas m) ∧
          (∀ (j : Fin 6) (i : Nat), i = l.idxDigFirst + j.val → m.digits[j] = readSlot b i) ∧
          m.dp.toNat = l.dpLiteral.toNat ∧
          m.unit = (if readSlot b l.idxUnit = 0 then .metric else .imperial) ∧
          m.sign = (if readSlot b l.idxSign = 0 then .positive
            else if readSlot b l.idxSign = l.signNeg then .negative else Config.signOther (readSlot b l.idxSign))) ∧
      (p = 2 → exec (.frameValid x) s = .next t) ∧ (p ≠ 2 → exec (.frameInvalid x p) s = .next t)

/-- The frame of the Decoder's three operations: the block, the ticks, the sink and the surroundings are unchanged. -/
def Obligations.DecoderFrame : Prop :=
  ∀ (i : Instr) (s t : State), eventOf i = none → exec i s = .next t →
    sameBlock s t ∧ nothingReported s t ∧ sameSurroundings s t ∧ t.ticks = s.ticks

/-- The Decoder sees neither the header nor, in a Measurement Result, the overrun count (42_decoder.md sections 1
and 3; C7): buffers that agree in the slots of the fields give the same verdict and the same result. At the source's
layout those are the slots from 4 on. -/
def Obligations.MeasurementIgnoresHeaderAndCount : Prop :=
  ∀ (p : Config.Params) (b b' : FrameBuffer) (o o' : Nat), p.wf = true →
    ((∀ i : Nat, (i = p.layout.idxSign ∨ i = p.layout.idxDp ∨ i = p.layout.idxUnit ∨
        (p.layout.idxDigFirst ≤ i ∧ i ≤ p.layout.idxDigLast)) → readSlot b i = readSlot b' i) →
      ∀ m, decodeFrame p b o = .meas m ↔ decodeFrame p b' o' = .meas m) ∧
    (p.layout = Config.Layout.source → (∀ i : Nat, 4 ≤ i → readSlot b i = readSlot b' i) →
      ∀ m, decodeFrame p b o = .meas m ↔ decodeFrame p b' o' = .meas m)

/-- The selector of a valid frame (30_encoding.md section 2): by default, with the decimal-point nibble in slot 11 and the
literal 2, a completed buffer decodes to a Measurement Result exactly when its frame word passes the mask and match; no
other bit matters. -/
def Obligations.ValidFrameSelector : Prop :=
  ∀ (p : Config.Params) (b : FrameBuffer) (o : Nat), p.layout.idxDp = 11 → p.layout.dpLiteral = 2 →
    p.strictDigits = false →
    ((decodeFrame p b o).isMeas = true ↔ frameWord b &&& 0x0F00000000000 = 0x0200000000000)

/-- R63: decoding twice gives identical results and changes nothing of the block; `TICK.RS` is idempotent on the buffer;
`CLK.SAMPLE` is not idempotent: it advances the pointer. -/
def Obligations.RepeatedOperations : Prop :=
  (∀ (x : FrameFields) (p : Nibble) (s : State), ∃ t, exec (.decode x p) s = .next t ∧ exec (.decode x p) t = .next t ∧
    sameBlock s t) ∧
  (∀ (s t : State), exec .tickRs s = .next t →
    ∃ u, exec .tickRs { t with acq := .requestSent } = .next u ∧ u.buf = t.buf) ∧
  (∀ (d : Level) (s t : State), exec (.clkSample d) s = .next t →
    t.clocks ≠ s.clocks ∧ (t.bytePos, t.bitPos) ≠ (s.bytePos, s.bitPos))

/-- Where every digit is decimal, the reading is below 10^6 in magnitude, and sign and reading determine the digits
(42_decoder.md section 3): the digits are read most significant first. -/
def Obligations.DecimalReadingDeterminesDigits : Prop :=
  ∀ m m' : Measurement, (∀ n ∈ m.digits.toList, n.toNat ≤ 9) → (∀ n ∈ m'.digits.toList, n.toNat ≤ 9) →
    m.scaledValue.natAbs < 10 ^ 6 ∧
    (m.sign = m'.sign → m.scaledValue = m'.scaledValue → m.digits = m'.digits)

/-! ### The whole machine -/

/-- Every step from a state that meets the invariants R22 and R33 to R36 leads to one that meets them, whatever arrives. -/
def Obligations.StepKeepsInvariants : Prop := ∀ s t : State, BlockInvariant s → step s = .next t → BlockInvariant t

/-- In a state that meets the invariants no arrival of events stops the machine: the operation map is total, no
condition is fatal, and there is no terminal state. -/
def Obligations.EventsNeverStopTheMachine : Prop :=
  ∀ s : State, BlockInvariant s → (∀ v rest, s.stimulus ≠ .decoderCall v :: rest) → ∃ t, step s = .next t

/-- Two events that occur together: the two steps that handle them end as if they had come one after the other, in one
order or in the other; there is no third outcome (decisions D10, D22). It holds whatever the free order is. -/
def Obligations.CoincidentEventsTakeOneOfTwoOrders : Prop :=
  ∀ (s : State) (x y : Event) (rest : List Arrival), s.stimulus = .together x y :: rest →
    Host.Core.run Sys2Proof.core 2 s =
        Host.Core.run Sys2Proof.core 2 { s with stimulus := .event x :: .event y :: rest, draws := s.draws + 1 } ∨
      Host.Core.run Sys2Proof.core 2 s =
        Host.Core.run Sys2Proof.core 2 { s with stimulus := .event y :: .event x :: rest, draws := s.draws + 1 }

/-- A run over arriving events is the sequence of the reactions to them, one atomic operation each, in the order of
arrival; what is still to arrive stays. -/
def Obligations.RunIsTheSequenceOfReactions : Prop :=
  ∀ (es : List Event) (s : State) (rest : List Arrival), s.stimulus = es.map Arrival.event ++ rest →
    Host.Core.run Sys2Proof.core es.length s = reactAll es { s with stimulus := rest }

/-- No step changes a parameter or takes back a report (60_exceptions.md section 8: the host "cannot change a parameter
while running"), and what is to arrive only shrinks: an event or a call is taken, and of two events that occur together
the second in the free order stays (the list of arrivals is the model's own, log entry 1; the order is a free value, log
entry 8). -/
def Obligations.ParametersAndReportsStand : Prop :=
  ∀ s t : State, step s = .next t →
    t.params = s.params ∧ (∃ new, t.sink = s.sink ++ new ∧ new.length ≤ 1) ∧
      (∀ e rest, s.stimulus = .event e :: rest → t.stimulus = rest) ∧
      (∀ x y rest, s.stimulus = .together x y :: rest →
        t.stimulus = .event (orderOfPair s.draws x y).2 :: rest) ∧
      (∀ v rest, s.stimulus = .decoderCall v :: rest → t.stimulus = rest) ∧
      (s.stimulus = [] → t.stimulus = [])

/-- A whole request cycle, from any state in RequestSent, whatever the last cycle left: after the request, the `N_BITS`
(52) edges that deliver a buffer `b`, and one tick, exactly one report has been made, `DECODE(b, 0)`, on that tick, and
the block is idle again with the frame kept (95_test_vectors.md section 4, property 3; decisions D8, D9). -/
def Obligations.RequestCycleDeliversTheFrame : Prop :=
  ∀ (s : State) (b : FrameBuffer) (rest : List Arrival), s.params.wf = true → FitsGeometry s.params b →
    s.acq = .requestSent →
    s.stimulus = (.tick :: (frameEvents s.params b ++ [.tick])).map Arrival.event ++ rest →
    ∃ t, Host.Core.run Sys2Proof.core (s.params.nBits + 2) s = .next t ∧ t.stimulus = rest ∧ t.acq = .awaitingWindow ∧
      t.elapsed = 0 ∧ t.req = .high ∧ t.buf = b ∧ t.clocks = s.params.nBits ∧ t.overrunCount = 0 ∧
      t.sink = s.sink ++ [(s.ticks + 2, (decodeFrame s.params b 0).toReport)]

/-- Under the premise of a conforming caliper, which answers every request with exactly `N_BITS` (52) edges, and a
punctual tick, every report is a Measurement Result and `overrun_count` stays 0: at every point of such a trace
(60_exceptions.md section 10; decision D23, log entry 24). -/
def Obligations.ConformingCaliperAlwaysMeasures : Prop :=
  ∀ (es rest : List Event) (s : State), BlockInvariant s → s.acq ≠ .awaitingData → s.overrunCount = 0 →
    ConformingCaliper [] (es ++ rest) s → Punctual es s →
    ∃ t new, reactAll es s = .next t ∧ t.sink = s.sink ++ new ∧ (∀ r ∈ new, r.2.isMeas = true) ∧ t.overrunCount = 0
end

