-- ==== Sys2Proof/Laws/Decode.lean ====
section
/-! SUPPORT. What the decoder reads from the bytes that the machine fetches. -/

namespace Sys2Proof

/-- The operation byte carries its event, state and conditions: decoding it is the operation map (R83). -/
theorem decode_operationByte (c : Conditions) (e : Event) (st : AcquisitionState) :
    decode [operationByte c e st] = .ok (operationOf c e st) := by
  obtain ⟨f, w, t, v, r⟩ := c
  rcases e with _ | _ | d
  · cases st <;> revert f w t v r <;> decide
  · cases st <;> revert f w t v r <;> decide
  · cases d <;> cases st <;> revert f w t v r <;> decide

/-- Seven bytes carry their function word. -/
theorem decode_bytesOfFunctionWord (v : BitVec 56) : decode (bytesOfFunctionWord v) = decodeFunctionWord v := by
  have h : functionWordOfBytes (v.extractLsb' 0 8) (v.extractLsb' 8 8) (v.extractLsb' 16 8) (v.extractLsb' 24 8)
      (v.extractLsb' 32 8) (v.extractLsb' 40 8) (v.extractLsb' 48 8) = v := by
    apply BitVec.eq_of_getLsbD_eq
    intro i hi
    simp only [functionWordOfBytes, BitVec.getLsbD_append, BitVec.getLsbD_extractLsb']
    interval_cases i <;> simp
  simp only [bytesOfFunctionWord, decode, h]

namespace Machine

/-- What the machine fetches for an event decodes to the operation that the map selects. -/
theorem decode_selectorOf (e : Event) (s : State) :
    decode [selectorOf e s] = .ok (operationOf (conditionsOf s) e s.acq) :=
  decode_operationByte _ _ _

end Machine

end Sys2Proof
end

