-- ==== Sys2Proof/Laws/State.lean ====
section
/-! SUPPORT. One lemma per field per update of the state, each true by rfl, so that no later proof unfolds a record
update. -/

namespace Sys2Proof.Machine

/-! ### `quiet` -/

@[simp] theorem quiet_buf (s : State) : (quiet s).buf = s.buf := rfl
@[simp] theorem quiet_clocks (s : State) : (quiet s).clocks = s.clocks := rfl
@[simp] theorem quiet_bitPos (s : State) : (quiet s).bitPos = s.bitPos := rfl
@[simp] theorem quiet_bytePos (s : State) : (quiet s).bytePos = s.bytePos := rfl
@[simp] theorem quiet_overrunCount (s : State) : (quiet s).overrunCount = s.overrunCount := rfl
@[simp] theorem quiet_acq (s : State) : (quiet s).acq = s.acq := rfl
@[simp] theorem quiet_elapsed (s : State) : (quiet s).elapsed = s.elapsed := rfl
@[simp] theorem quiet_req (s : State) : (quiet s).req = s.req := rfl
@[simp] theorem quiet_params (s : State) : (quiet s).params = s.params := rfl
@[simp] theorem quiet_rpt (s : State) : (quiet s).rpt = none := rfl
@[simp] theorem quiet_decoderOut (s : State) : (quiet s).decoderOut = s.decoderOut := rfl
@[simp] theorem quiet_stimulus (s : State) : (quiet s).stimulus = s.stimulus := rfl
@[simp] theorem quiet_ticks (s : State) : (quiet s).ticks = s.ticks := rfl
@[simp] theorem quiet_sink (s : State) : (quiet s).sink = s.sink := rfl
@[simp] theorem quiet_draws (s : State) : (quiet s).draws = s.draws := rfl

/-! ### `beginTick` -/

@[simp] theorem beginTick_buf (s : State) : (beginTick s).buf = s.buf := rfl
@[simp] theorem beginTick_clocks (s : State) : (beginTick s).clocks = s.clocks := rfl
@[simp] theorem beginTick_bitPos (s : State) : (beginTick s).bitPos = s.bitPos := rfl
@[simp] theorem beginTick_bytePos (s : State) : (beginTick s).bytePos = s.bytePos := rfl
@[simp] theorem beginTick_overrunCount (s : State) : (beginTick s).overrunCount = s.overrunCount := rfl
@[simp] theorem beginTick_acq (s : State) : (beginTick s).acq = s.acq := rfl
@[simp] theorem beginTick_elapsed (s : State) : (beginTick s).elapsed = s.elapsed := rfl
@[simp] theorem beginTick_req (s : State) : (beginTick s).req = s.req := rfl
@[simp] theorem beginTick_params (s : State) : (beginTick s).params = s.params := rfl
@[simp] theorem beginTick_rpt (s : State) : (beginTick s).rpt = none := rfl
@[simp] theorem beginTick_decoderOut (s : State) : (beginTick s).decoderOut = s.decoderOut := rfl
@[simp] theorem beginTick_stimulus (s : State) : (beginTick s).stimulus = s.stimulus := rfl
@[simp] theorem beginTick_ticks (s : State) : (beginTick s).ticks = s.ticks + 1 := rfl
@[simp] theorem beginTick_sink (s : State) : (beginTick s).sink = s.sink := rfl
@[simp] theorem beginTick_draws (s : State) : (beginTick s).draws = s.draws := rfl

/-! ### `emit` -/

@[simp] theorem emit_buf (r : Report) (s : State) : (emit r s).buf = s.buf := rfl
@[simp] theorem emit_clocks (r : Report) (s : State) : (emit r s).clocks = s.clocks := rfl
@[simp] theorem emit_bitPos (r : Report) (s : State) : (emit r s).bitPos = s.bitPos := rfl
@[simp] theorem emit_bytePos (r : Report) (s : State) : (emit r s).bytePos = s.bytePos := rfl
@[simp] theorem emit_overrunCount (r : Report) (s : State) : (emit r s).overrunCount = s.overrunCount := rfl
@[simp] theorem emit_acq (r : Report) (s : State) : (emit r s).acq = s.acq := rfl
@[simp] theorem emit_elapsed (r : Report) (s : State) : (emit r s).elapsed = s.elapsed := rfl
@[simp] theorem emit_req (r : Report) (s : State) : (emit r s).req = s.req := rfl
@[simp] theorem emit_params (r : Report) (s : State) : (emit r s).params = s.params := rfl
@[simp] theorem emit_rpt (r : Report) (s : State) : (emit r s).rpt = some r := rfl
@[simp] theorem emit_decoderOut (r : Report) (s : State) : (emit r s).decoderOut = s.decoderOut := rfl
@[simp] theorem emit_stimulus (r : Report) (s : State) : (emit r s).stimulus = s.stimulus := rfl
@[simp] theorem emit_ticks (r : Report) (s : State) : (emit r s).ticks = s.ticks := rfl
@[simp] theorem emit_sink (r : Report) (s : State) : (emit r s).sink = s.sink ++ [(s.ticks, r)] := rfl
@[simp] theorem emit_draws (r : Report) (s : State) : (emit r s).draws = s.draws := rfl

/-! ### `endCycle` -/

@[simp] theorem endCycle_buf (r : Report) (s : State) : (endCycle r s).buf = s.buf := rfl
@[simp] theorem endCycle_clocks (r : Report) (s : State) : (endCycle r s).clocks = s.clocks := rfl
@[simp] theorem endCycle_bitPos (r : Report) (s : State) : (endCycle r s).bitPos = s.bitPos := rfl
@[simp] theorem endCycle_bytePos (r : Report) (s : State) : (endCycle r s).bytePos = s.bytePos := rfl
@[simp] theorem endCycle_overrunCount (r : Report) (s : State) : (endCycle r s).overrunCount = s.overrunCount := rfl
@[simp] theorem endCycle_acq (r : Report) (s : State) : (endCycle r s).acq = .awaitingWindow := rfl
@[simp] theorem endCycle_elapsed (r : Report) (s : State) : (endCycle r s).elapsed = 0 := rfl
@[simp] theorem endCycle_req (r : Report) (s : State) : (endCycle r s).req = s.req := rfl
@[simp] theorem endCycle_params (r : Report) (s : State) : (endCycle r s).params = s.params := rfl
@[simp] theorem endCycle_rpt (r : Report) (s : State) : (endCycle r s).rpt = some r := rfl
@[simp] theorem endCycle_decoderOut (r : Report) (s : State) : (endCycle r s).decoderOut = s.decoderOut := rfl
@[simp] theorem endCycle_stimulus (r : Report) (s : State) : (endCycle r s).stimulus = s.stimulus := rfl
@[simp] theorem endCycle_ticks (r : Report) (s : State) : (endCycle r s).ticks = s.ticks := rfl
@[simp] theorem endCycle_sink (r : Report) (s : State) : (endCycle r s).sink = s.sink ++ [(s.ticks, r)] := rfl
@[simp] theorem endCycle_draws (r : Report) (s : State) : (endCycle r s).draws = s.draws := rfl

/-! ### `clearAcquisition` -/

@[simp] theorem clearAcquisition_buf (s : State) : (clearAcquisition s).buf = clearedBuffer s.params.nNibbles := rfl
@[simp] theorem clearAcquisition_clocks (s : State) : (clearAcquisition s).clocks = 0 := rfl
@[simp] theorem clearAcquisition_bitPos (s : State) : (clearAcquisition s).bitPos = 0 := rfl
@[simp] theorem clearAcquisition_bytePos (s : State) : (clearAcquisition s).bytePos = 0 := rfl
@[simp] theorem clearAcquisition_overrunCount (s : State) : (clearAcquisition s).overrunCount = 0 := rfl
@[simp] theorem clearAcquisition_acq (s : State) : (clearAcquisition s).acq = s.acq := rfl
@[simp] theorem clearAcquisition_elapsed (s : State) : (clearAcquisition s).elapsed = s.elapsed := rfl
@[simp] theorem clearAcquisition_req (s : State) : (clearAcquisition s).req = s.req := rfl
@[simp] theorem clearAcquisition_params (s : State) : (clearAcquisition s).params = s.params := rfl
@[simp] theorem clearAcquisition_rpt (s : State) : (clearAcquisition s).rpt = s.rpt := rfl
@[simp] theorem clearAcquisition_decoderOut (s : State) : (clearAcquisition s).decoderOut = s.decoderOut := rfl
@[simp] theorem clearAcquisition_stimulus (s : State) : (clearAcquisition s).stimulus = s.stimulus := rfl
@[simp] theorem clearAcquisition_ticks (s : State) : (clearAcquisition s).ticks = s.ticks := rfl
@[simp] theorem clearAcquisition_sink (s : State) : (clearAcquisition s).sink = s.sink := rfl
@[simp] theorem clearAcquisition_draws (s : State) : (clearAcquisition s).draws = s.draws := rfl

/-! ### `completeFrame` -/

@[simp] theorem completeFrame_buf (s : State) : (completeFrame s).buf = s.buf := rfl
@[simp] theorem completeFrame_clocks (s : State) : (completeFrame s).clocks = s.clocks := rfl
@[simp] theorem completeFrame_bitPos (s : State) : (completeFrame s).bitPos = s.bitPos := rfl
@[simp] theorem completeFrame_bytePos (s : State) : (completeFrame s).bytePos = s.bytePos := rfl
@[simp] theorem completeFrame_overrunCount (s : State) : (completeFrame s).overrunCount = s.overrunCount := rfl
@[simp] theorem completeFrame_acq (s : State) : (completeFrame s).acq = .awaitingWindow := rfl
@[simp] theorem completeFrame_elapsed (s : State) : (completeFrame s).elapsed = 0 := rfl
@[simp] theorem completeFrame_req (s : State) : (completeFrame s).req = .high := rfl
@[simp] theorem completeFrame_params (s : State) : (completeFrame s).params = s.params := rfl
@[simp] theorem completeFrame_rpt (s : State) : (completeFrame s).rpt = some (decodeFrame s.params s.buf s.overrunCount).toReport := rfl
@[simp] theorem completeFrame_decoderOut (s : State) : (completeFrame s).decoderOut = some (decodeFrame s.params s.buf s.overrunCount) := rfl
@[simp] theorem completeFrame_stimulus (s : State) : (completeFrame s).stimulus = s.stimulus := rfl
@[simp] theorem completeFrame_ticks (s : State) : (completeFrame s).ticks = s.ticks + 1 := rfl
@[simp] theorem completeFrame_sink (s : State) : (completeFrame s).sink = s.sink ++ [(s.ticks + 1, (decodeFrame s.params s.buf s.overrunCount).toReport)] := rfl
@[simp] theorem completeFrame_draws (s : State) : (completeFrame s).draws = s.draws := rfl

/-! ### `callDecoder` -/

@[simp] theorem callDecoder_buf (b : FrameBuffer) (s : State) : (callDecoder b s).buf = s.buf := rfl
@[simp] theorem callDecoder_clocks (b : FrameBuffer) (s : State) : (callDecoder b s).clocks = s.clocks := rfl
@[simp] theorem callDecoder_bitPos (b : FrameBuffer) (s : State) : (callDecoder b s).bitPos = s.bitPos := rfl
@[simp] theorem callDecoder_bytePos (b : FrameBuffer) (s : State) : (callDecoder b s).bytePos = s.bytePos := rfl
@[simp] theorem callDecoder_overrunCount (b : FrameBuffer) (s : State) : (callDecoder b s).overrunCount = s.overrunCount := rfl
@[simp] theorem callDecoder_acq (b : FrameBuffer) (s : State) : (callDecoder b s).acq = s.acq := rfl
@[simp] theorem callDecoder_elapsed (b : FrameBuffer) (s : State) : (callDecoder b s).elapsed = s.elapsed := rfl
@[simp] theorem callDecoder_req (b : FrameBuffer) (s : State) : (callDecoder b s).req = s.req := rfl
@[simp] theorem callDecoder_params (b : FrameBuffer) (s : State) : (callDecoder b s).params = s.params := rfl
@[simp] theorem callDecoder_rpt (b : FrameBuffer) (s : State) : (callDecoder b s).rpt = none := rfl
@[simp] theorem callDecoder_decoderOut (b : FrameBuffer) (s : State) : (callDecoder b s).decoderOut = some (decodeFrame s.params b s.overrunCount) := rfl
@[simp] theorem callDecoder_stimulus (b : FrameBuffer) (s : State) : (callDecoder b s).stimulus = s.stimulus := rfl
@[simp] theorem callDecoder_ticks (b : FrameBuffer) (s : State) : (callDecoder b s).ticks = s.ticks := rfl
@[simp] theorem callDecoder_sink (b : FrameBuffer) (s : State) : (callDecoder b s).sink = s.sink := rfl
@[simp] theorem callDecoder_draws (b : FrameBuffer) (s : State) : (callDecoder b s).draws = s.draws := rfl

/-! ### What the conditions read -/

@[simp] theorem conditionsOf_stimulus (s : State) (l : List Arrival) :
    conditionsOf { s with stimulus := l } = conditionsOf s := rfl

@[simp] theorem conditionsOf_stimulus_draws (s : State) (l : List Arrival) (n : Nat) :
    conditionsOf { s with stimulus := l, draws := n } = conditionsOf s := rfl

@[simp] theorem conditionsOf_frameComplete (s : State) : (conditionsOf s).frameComplete = frameComplete s := rfl

@[simp] theorem conditionsOf_windowExpired (s : State) : (conditionsOf s).windowExpired = windowExpired s := rfl

@[simp] theorem conditionsOf_timedOut (s : State) : (conditionsOf s).timedOut = timedOut s := rfl

@[simp] theorem conditionsOf_frameValid (s : State) : (conditionsOf s).frameValid = frameValid s := rfl

@[simp] theorem conditionsOf_digitRejected (s : State) : (conditionsOf s).digitRejected = digitRejected s := rfl

@[simp] theorem conditionsOf_decodes (s : State) : (conditionsOf s).decodes = decodeSucceeds s := rfl

end Sys2Proof.Machine
end

