-- ==== Sys2Proof/Laws/Ops.lean ====
section
/-! SUPPORT. One lemma per shared operation that says once everything it can do; later proofs cite these and do not
unfold the operations. -/

namespace Sys2Proof.Machine

/-! ### Conditions -/

theorem frameComplete_iff (s : State) : frameComplete s = true ↔ s.clocks = s.params.nBits := by
  simp [frameComplete]

theorem not_frameComplete_iff (s : State) : frameComplete s = false ↔ s.clocks ≠ s.params.nBits := by
  simp [frameComplete]

theorem windowExpired_iff (s : State) : windowExpired s = true ↔ s.params.idleTicks ≤ s.elapsed.toNat + 1 := by
  simp [windowExpired]

theorem not_windowExpired_iff (s : State) : windowExpired s = false ↔ s.elapsed.toNat + 1 < s.params.idleTicks := by
  simp [windowExpired]

theorem timedOut_iff (s : State) : timedOut s = true ↔ s.params.timeoutTicks < s.elapsed.toNat + 1 := by
  simp [timedOut]

theorem not_timedOut_iff (s : State) : timedOut s = false ↔ s.elapsed.toNat + 1 ≤ s.params.timeoutTicks := by
  simp [timedOut]

/-! ### Parameters -/

/-- The constraints of the geometry, one by one. -/
theorem params_geometry {p : Config.Params} (h : p.wf = true) :
    1 ≤ p.nibbleW ∧ p.nibbleW ≤ 4 ∧ 1 ≤ p.nNibbles ∧ p.nBits = p.nibbleW * p.nNibbles := by
  simp only [Config.Params.wf, Config.Params.geometryWf, Bool.and_eq_true, decide_eq_true_eq] at h
  obtain ⟨⟨⟨⟨⟨⟨⟨⟨h1, h2⟩, h3⟩, h4⟩, -⟩, -⟩, -⟩, -⟩, -⟩ := h
  exact ⟨h1, h2, h3, h4⟩

/-- The constraints of the layout, one by one. -/
theorem params_layout {p : Config.Params} (h : p.wf = true) :
    p.layout.idxSign < p.nNibbles ∧ p.layout.idxDigLast < p.nNibbles ∧ p.layout.idxDp < p.nNibbles ∧
      p.layout.idxUnit < p.nNibbles ∧ p.layout.idxDigLast = p.layout.idxDigFirst + 5 ∧
      p.layout.dpLiteral.toNat ≤ 6 := by
  simp only [Config.Params.wf, Config.Params.layoutWf, Bool.and_eq_true, decide_eq_true_eq] at h
  obtain ⟨⟨⟨⟨⟨-, ⟨⟨⟨⟨h1, h2⟩, h3⟩, h4⟩, h5⟩, h6⟩, -⟩, -⟩, -⟩, -⟩ := h
  exact ⟨h1, h2, h3, h4, h5, h6⟩

/-- The constraints of the counts, one by one. -/
theorem params_counts {p : Config.Params} (h : p.wf = true) :
    1 ≤ p.ovrW ∧ 1 ≤ p.idleTicks ∧ p.idleTicks < 256 ∧ p.timeoutTicks + 1 < 256 := by
  simp only [Config.Params.wf, Bool.and_eq_true, decide_eq_true_eq] at h
  obtain ⟨⟨⟨⟨-, h1⟩, h2⟩, h3⟩, h4⟩ := h
  exact ⟨h1, h2, h3, h4⟩

/-- A frame has at least one bit. -/
theorem nBits_pos {p : Config.Params} (h : p.wf = true) : 1 ≤ p.nBits := by
  obtain ⟨h1, -, h3, h4⟩ := params_geometry h
  rw [h4]
  exact Nat.mul_pos h1 h3

/-- A position of the frame is its slot and its bit in the slot. -/
theorem position_iff {w k i q : Nat} (hq : q < w) : k = w * i + q ↔ k / w = i ∧ k % w = q := by
  rw [Nat.div_mod_unique (by omega)]
  omega

/-- The slot of a bit of the frame is a slot of the geometry. -/
theorem slot_lt {p : Config.Params} (h : p.wf = true) {k : Nat} (hk : k < p.nBits) : k / p.nibbleW < p.nNibbles :=
  Nat.div_lt_of_lt_mul (by rw [← (params_geometry h).2.2.2]; exact hk)

/-! ### Selection and counting -/

@[simp] theorem acquisitionState_beq (a b : AcquisitionState) : (a == b) = decide (a = b) := by
  cases a <;> cases b <;> rfl

/-- A guarded operation answers a next state only where it is selected. -/
theorem whenSelected_next {c : Bool} {r : Result} {t : State} :
    whenSelected c r = .next t ↔ c = true ∧ r = .next t := by
  cases c <;> simp [whenSelected]

@[simp] theorem whenSelected_true (r : Result) : whenSelected true r = r := rfl

@[simp] theorem whenSelected_false (r : Result) : whenSelected false r = .refused .notSelected := rfl

theorem le_satInc (w v : Nat) : v ≤ satInc w v := by
  unfold satInc; split <;> omega

theorem satInc_lt {w v : Nat} (h : v < 2 ^ w) : satInc w v < 2 ^ w := by
  unfold satInc; split <;> omega

/-- Counting one more, saturating, is the saturated count of one more. -/
theorem satInc_min (w n : Nat) : satInc w (min n (2 ^ w - 1)) = min (n + 1) (2 ^ w - 1) := by
  unfold satInc; split <;> omega

/-- A tick counted without wrapping. -/
theorem elapsed_succ (e : BitVec 8) (h : e.toNat + 1 < 256) : (e + 1).toNat = e.toNat + 1 := by
  rw [BitVec.toNat_add]; exact Nat.mod_eq_of_lt h

/-! ### The buffer -/

@[simp] theorem length_writeSlot (b : FrameBuffer) (i : Nat) (v : Nibble) :
    (writeSlot b i v).length = b.length := by
  simp [writeSlot]

theorem readSlot_writeSlot_same {b : FrameBuffer} {i : Nat} (v : Nibble) (h : i < b.length) :
    readSlot (writeSlot b i v) i = v := by
  simp [readSlot, writeSlot, h]

theorem readSlot_writeSlot_other (b : FrameBuffer) {i j : Nat} (v : Nibble) (h : j ≠ i) :
    readSlot (writeSlot b i v) j = readSlot b j := by
  simp [readSlot, writeSlot, List.getElem?_set_ne (Ne.symm h)]

@[simp] theorem length_clearedBuffer (n : Nat) : (clearedBuffer n).length = n := List.length_replicate

@[simp] theorem readSlot_clearedBuffer (n : Nat) (i : Nat) : readSlot (clearedBuffer n) i = 0 := by
  simp only [readSlot, clearedBuffer, List.getD_eq_getElem?_getD, List.getElem?_replicate]
  split <;> rfl

@[simp] theorem frameBit_clearedBuffer (p : Config.Params) (n k : Nat) : frameBit p (clearedBuffer n) k = false := by
  simp [frameBit]

theorem fitsGeometry_clearedBuffer (p : Config.Params) : FitsGeometry p (clearedBuffer p.nNibbles) := by
  refine ⟨length_clearedBuffer _, fun v hv => ?_⟩
  rw [(List.mem_replicate.1 hv).2]
  exact Nat.two_pow_pos _

/-- What a slot of the geometry reads as fits the slot's bits. -/
theorem readSlot_lt {p : Config.Params} {b : FrameBuffer} (h : FitsGeometry p b) (i : Nat) :
    (readSlot b i).toNat < 2 ^ p.nibbleW := by
  by_cases hi : i < b.length
  · have e : readSlot b i = b[i] := by simp [readSlot, hi]
    rw [e]
    exact h.2 _ (List.getElem_mem hi)
  · have e : readSlot b i = 0 := by simp [readSlot, List.getElem?_eq_none (Nat.le_of_not_lt hi)]
    rw [e]
    exact Nat.two_pow_pos _

/-- Adding the pointer's bit to a slot of `w` bits whose bit is clear sets that bit and leaves the others: no carry. -/
theorem addToSlot_bit {w : Nat} (h1 : 1 ≤ w) (h4 : w ≤ 4) (n : Nibble) (k j : Fin 4) (hk : k.val < w)
    (hn : n.toNat < 2 ^ w) (h : n.getLsbD k.val = false) :
    (addToSlot w n k).getLsbD j.val = (n.getLsbD j.val || j == k) := by
  revert n k j
  interval_cases w <;> decide

/-- The same addition as an OR (R101, corner case (b)). -/
theorem addToSlot_eq_or {w : Nat} (h1 : 1 ≤ w) (h4 : w ≤ 4) (n : Nibble) (k : Fin 4) (hk : k.val < w)
    (hn : n.toNat < 2 ^ w) (h : n.getLsbD k.val = false) : addToSlot w n k = n ||| ((1 : Nibble) <<< k.val) := by
  revert n k
  interval_cases w <;> decide

/-- The value that the addition stores. -/
theorem addToSlot_toNat {w : Nat} (h4 : w ≤ 4) (n : Nibble) (k : BitPos) :
    (addToSlot w n k).toNat = (n.toNat + 2 ^ k.val) % 2 ^ w := by
  have h0 : 0 < 2 ^ w := Nat.two_pow_pos w
  have h1 : 2 ^ w ≤ 2 ^ 4 := Nat.pow_le_pow_right (by decide) h4
  have h2 := Nat.mod_lt (n.toNat + 2 ^ k.val) h0
  rw [addToSlot, BitVec.toNat_ofNat]
  exact Nat.mod_eq_of_lt (by omega)

@[simp] theorem length_addBit (w : Nat) (b : FrameBuffer) (i : Nat) (k : BitPos) :
    (addBit w b i k).length = b.length :=
  length_writeSlot _ _ _

theorem addBit_same (w : Nat) {b : FrameBuffer} {i : Nat} (k : BitPos) (h : i < b.length) :
    readSlot (addBit w b i k) i = addToSlot w (readSlot b i) k :=
  readSlot_writeSlot_same _ h

theorem addBit_other (w : Nat) (b : FrameBuffer) {i j : Nat} (k : BitPos) (h : j ≠ i) :
    readSlot (addBit w b i k) j = readSlot b j :=
  readSlot_writeSlot_other b _ h

/-- Storing a bit in a slot gives a buffer of the same geometry. -/
theorem fitsGeometry_addBit {p : Config.Params} (hp : p.wf = true) {b : FrameBuffer} (hb : FitsGeometry p b)
    (i : Nat) (k : BitPos) : FitsGeometry p (addBit p.nibbleW b i k) := by
  refine ⟨(length_addBit _ _ _ _).trans hb.1, fun v hv => ?_⟩
  rcases List.mem_or_eq_of_mem_set hv with h | rfl
  · exact hb.2 v h
  · rw [addToSlot_toNat (params_geometry hp).2.1]
    exact Nat.mod_lt _ (Nat.two_pow_pos _)

/-- Storing a bit at a clear position sets exactly that bit of the frame. -/
theorem frameBit_addBit {p : Config.Params} (hp : p.wf = true) {b : FrameBuffer} (hb : FitsGeometry p b) {i : Nat}
    (hi : i < p.nNibbles) (q : BitPos) (hq : q.val < p.nibbleW) (h : (readSlot b i).getLsbD q.val = false) (k : Nat) :
    frameBit p (addBit p.nibbleW b i q) k = (frameBit p b k || decide (k = p.nibbleW * i + q.val)) := by
  obtain ⟨h1, h4, -⟩ := params_geometry hp
  have hm : k % p.nibbleW < 4 := Nat.lt_of_lt_of_le (Nat.mod_lt _ h1) h4
  have hpos : decide (k = p.nibbleW * i + q.val) = (decide (k / p.nibbleW = i) && decide (k % p.nibbleW = q.val)) := by
    rw [Bool.eq_iff_iff, Bool.and_eq_true, decide_eq_true_eq, decide_eq_true_eq, decide_eq_true_eq]
    exact position_iff hq
  rw [hpos]
  unfold frameBit
  by_cases hk : k / p.nibbleW = i
  · rw [hk, addBit_same _ _ (by rw [hb.1]; exact hi)]
    refine (addToSlot_bit h1 h4 _ q ⟨k % p.nibbleW, hm⟩ hq (readSlot_lt hb i) h).trans ?_
    congr 1
    rw [Bool.eq_iff_iff]
    simp [Fin.ext_iff]
  · rw [addBit_other _ _ _ hk]
    simp [hk]

/-- Two buffers of the geometry with the same bits are the same buffer. -/
theorem buffer_ext_bits {p : Config.Params} (hp : p.wf = true) {b c : FrameBuffer} (hb : FitsGeometry p b)
    (hc : FitsGeometry p c) (h : ∀ k, k < p.nBits → frameBit p b k = frameBit p c k) : b = c := by
  obtain ⟨-, -, -, h7⟩ := params_geometry hp
  refine List.ext_getElem (hb.1.trans hc.1.symm) fun i hi hi' => ?_
  have hin : i < p.nNibbles := hb.1 ▸ hi
  have eb : readSlot b i = b[i] := by simp [readSlot, hi]
  have ec : readSlot c i = c.get ⟨i, hi'⟩ := by simp [readSlot, hi']
  rw [← eb]
  refine Eq.trans ?_ ec
  apply BitVec.eq_of_getLsbD_eq
  intro j _
  by_cases hj : j < p.nibbleW
  · have hk := (position_iff (k := p.nibbleW * i + j) (i := i) hj).1 rfl
    have := h (p.nibbleW * i + j) (by
      rw [h7]
      calc p.nibbleW * i + j < p.nibbleW * i + p.nibbleW := by omega
        _ = p.nibbleW * (i + 1) := (Nat.mul_succ _ _).symm
        _ ≤ p.nibbleW * p.nNibbles := Nat.mul_le_mul_left _ hin)
    simpa only [frameBit, hk] using this
  · have hz : ∀ {d : FrameBuffer}, FitsGeometry p d → (readSlot d i).getLsbD j = false := fun hd =>
      Nat.testBit_lt_two_pow (Nat.lt_of_lt_of_le (readSlot_lt hd i) (Nat.pow_le_pow_right (by decide) (by omega)))
    rw [hz hb, hz hc]

/-- The bit at the pointer is the next bit of the frame. -/
theorem frameBit_pointer {s : State} (hp : PointerAgrees s) :
    frameBit s.params s.buf s.clocks = (readSlot s.buf s.bytePos).getLsbD s.bitPos.val := by
  obtain ⟨h1, -, h3⟩ := hp
  simp only [frameBit, (position_iff h3).1 h1]

/-- Where R33 and R35 hold the addressed bit is zero. -/
theorem addressed_bit_clear {s : State} (hu : UnwrittenBitsZero s) (hp : PointerAgrees s)
    (hc : s.clocks ≠ s.params.nBits) : (readSlot s.buf s.bytePos).getLsbD s.bitPos.val = false := by
  rw [← frameBit_pointer hp]
  exact hu _ (Nat.lt_of_le_of_ne hp.2.1 hc) (le_refl _)

/-- Where R35 holds and the frame is not complete, `byte_pos` names a slot. -/
theorem bytePos_lt {s : State} (hw : s.params.wf = true) (hp : PointerAgrees s) (hc : s.clocks ≠ s.params.nBits) :
    s.bytePos < s.params.nNibbles := by
  obtain ⟨h1, h2, h3⟩ := hp
  have hs := slot_lt hw (Nat.lt_of_le_of_ne h2 hc)
  rwa [((position_iff h3).1 h1).1] at hs

/-- Every memory view of a buffer is in canonical form, after any write and after the clearing alike. -/
theorem bufferCells_wf (b : FrameBuffer) : Memory.wf b.length (bufferCells b) := by
  constructor
  · rw [bufferCells, List.map_filterMap]
    refine List.Pairwise.filterMap (R := fun x y : Nat => x < y) _ ?_ List.pairwise_lt_range
    intro x y hxy u hu v hv
    by_cases hx : readSlot b x = 0 <;> by_cases hy : readSlot b y = 0 <;> simp [hx, hy] at hu hv
    obtain ⟨-, rfl⟩ := hu; obtain ⟨-, rfl⟩ := hv; exact hxy
  · intro c hc
    simp only [bufferCells, List.mem_filterMap] at hc
    obtain ⟨i, hmem, hi⟩ := hc
    split at hi
    · cases hi
    · rename_i hne
      injection hi with hi
      subst hi
      have hlt := (readSlot b i).isLt
      refine ⟨List.mem_range.1 hmem, ?_, ?_⟩
      · intro h0
        apply hne
        have := congrArg BitVec.toNat h0
        simp at this
        apply BitVec.eq_of_toNat_eq
        simp
        omega
      · simp
        omega

theorem reset_bufferCells : bufferCells State.reset.buf = [] := by decide

/-! ### The pointer -/

theorem slotIndex?_eq_some {n p i : Nat} : slotIndex? n p = some i ↔ p = i ∧ p < n := by
  unfold slotIndex?
  split
  · rename_i h; simp [h]
  · rename_i h; simp [h]

theorem slotIndex?_eq_none {n p : Nat} : slotIndex? n p = none ↔ n ≤ p := by
  unfold slotIndex?
  split
  · simp only [reduceCtorEq, false_iff]; omega
  · simp only [true_iff]; omega

theorem nextBitPos_val {w : Nat} (h4 : w ≤ 4) (k : BitPos) (hk : k.val < w) :
    (nextBitPos w k).val = if k.val + 1 = w then 0 else k.val + 1 := by
  revert k
  interval_cases w <;> decide

/-- Advancing the pointer keeps its agreement with the count (R35). -/
theorem pointer_succ {w c p : Nat} (h4 : w ≤ 4) (k : BitPos) (hk : k.val < w) (h : c = w * p + k.val) :
    c + 1 = w * nextBytePos w k p + (nextBitPos w k).val ∧ (nextBitPos w k).val < w := by
  rw [nextBytePos, nextBitPos_val h4 k hk]
  split
  · rw [Nat.mul_succ]
    omega
  · omega

/-! ### Taking the next arrival -/

/-- Everything taking an arrival can do. -/
theorem fetch_cases {s s' : State} {bs : List Byte} (h : fetch s = some (bs, s')) :
    (∃ e rest, s.stimulus = .event e :: rest ∧ bs = [selectorOf e s] ∧ s' = { s with stimulus := rest }) ∨
    (∃ x y rest, s.stimulus = .together x y :: rest ∧ bs = [selectorOf (orderOfPair s.draws x y).1 s] ∧
      s' = { s with stimulus := .event (orderOfPair s.draws x y).2 :: rest, draws := s.draws + 1 }) ∨
    (∃ v rest, s.stimulus = .decoderCall v :: rest ∧ bs = bytesOfFunctionWord v ∧
      s' = { s with stimulus := rest }) := by
  unfold fetch at h
  split at h
  · cases h
  · rename_i e rest hs; cases h; exact .inl ⟨e, rest, hs, rfl, rfl⟩
  · rename_i x y rest hs; cases h; exact .inr (.inl ⟨x, y, rest, hs, rfl, rfl⟩)
  · rename_i v rest hs; cases h; exact .inr (.inr ⟨v, rest, hs, rfl, rfl⟩)

/-- A pair is taken in one of its two orders. -/
theorem orderOfPair_cases (n : Nat) (x y : Event) : orderOfPair n x y = (x, y) ∨ orderOfPair n x y = (y, x) := by
  unfold orderOfPair; split <;> simp

end Sys2Proof.Machine
end

