-- ==== Sys2Proof/Laws/Decoder.lean ====
section
/-! SUPPORT. The one spec lemma of `DECODE`, and what its operands read. -/

namespace Sys2Proof.Machine

/-- The digit slots are those from `IDX_DIG_FIRST` to `IDX_DIG_LAST` (R73). -/
theorem digitSlot_surjective {p : Config.Params} (h : p.wf = true) {i : Nat} (h1 : p.layout.idxDigFirst ≤ i)
    (h2 : i ≤ p.layout.idxDigLast) : ∃ j, digitSlot p.layout j = i := by
  have h3 := (params_layout h).2.2.2.2.1
  refine ⟨⟨i - p.layout.idxDigFirst, by omega⟩, ?_⟩
  simp only [digitSlot]
  omega

@[simp] theorem digitsOf_get (l : Config.Layout) (b : FrameBuffer) (j : Fin 6) :
    (digitsOf l b)[j] = readSlot b (digitSlot l j) := by
  simp [digitsOf]

/-- A digit of the result is the nibble of its slot (R153). -/
theorem mem_digitsOf {l : Config.Layout} {b : FrameBuffer} {n : Nibble} :
    n ∈ (digitsOf l b).toList ↔ ∃ j, readSlot b (digitSlot l j) = n := by
  rw [digitsOf, Vector.toList_ofFn, List.mem_ofFn]

/-- A non-decimal digit stands in one of the digit slots (R80). -/
theorem hasNonDecimalDigit_iff {p : Config.Params} (h : p.wf = true) (b : FrameBuffer) :
    hasNonDecimalDigit p.layout b = true ↔
      ∃ i : Nat, p.layout.idxDigFirst ≤ i ∧ i ≤ p.layout.idxDigLast ∧ 9 < (readSlot b i).toNat := by
  have h3 := (params_layout h).2.2.2.2.1
  simp only [hasNonDecimalDigit, List.any_eq_true, decide_eq_true_eq, mem_digitsOf]
  constructor
  · rintro ⟨x, ⟨j, rfl⟩, hx⟩
    have h4 := j.isLt
    exact ⟨_, by simp only [digitSlot]; omega, by simp only [digitSlot]; omega, hx⟩
  · rintro ⟨i, h1, h2, hx⟩
    obtain ⟨j, rfl⟩ := digitSlot_surjective h h1 h2
    exact ⟨_, ⟨j, rfl⟩, hx⟩

/-- Everything `DECODE` can return (R150): a Decode Error with its arguments, exactly where the gate or the strict check
fails, and otherwise the assembled result. -/
theorem decodeFrame_cases (p : Config.Params) (b : FrameBuffer) (o : Nat) :
    (decodeFrame p b o = .ierr ⟨b, o⟩ ∧
      (readSlot b p.layout.idxDp ≠ p.layout.dpLiteral ∨
        p.strictDigits = true ∧ hasNonDecimalDigit p.layout b = true)) ∨
    (decodeFrame p b o =
        .meas ⟨signOf p.layout (readSlot b p.layout.idxSign), digitsOf p.layout b, p.layout.dpLiteral.setWidth 3,
          unitOf (readSlot b p.layout.idxUnit)⟩ ∧
      readSlot b p.layout.idxDp = p.layout.dpLiteral ∧
      (p.strictDigits = true → hasNonDecimalDigit p.layout b = false)) := by
  by_cases h : dpNibble p.layout b = p.layout.dpLiteral
  · by_cases h2 : (hasNonDecimalDigit p.layout b && p.strictDigits) = true
    · left
      unfold decodeFrame
      rw [if_neg (not_not.2 h), if_pos h2]
      rw [Bool.and_eq_true] at h2
      exact ⟨rfl, .inr ⟨h2.2, h2.1⟩⟩
    · right
      unfold decodeFrame
      rw [if_neg (not_not.2 h), if_neg h2]
      refine ⟨?_, h, ?_⟩
      · rw [dpOf, h]
      · intro h3; rw [h3] at h2; simpa using h2
  · left
    unfold decodeFrame
    rw [if_pos h]
    exact ⟨rfl, .inl h⟩

theorem frameValid_iff (s : State) :
    frameValid s = true ↔ readSlot s.buf s.params.layout.idxDp = s.params.layout.dpLiteral := by
  simp [frameValid, dpNibble]

/-- "`DECODE` succeeds" (R83) says what it says: the gate and the strict check are what `DECODE` makes of the buffer. -/
theorem decodeSucceeds_eq (s : State) : decodeSucceeds s = (decodeFrame s.params s.buf s.overrunCount).isMeas := by
  unfold decodeSucceeds Conditions.decodes conditionsOf frameValid digitRejected decodeFrame
  by_cases h : dpNibble s.params.layout s.buf = s.params.layout.dpLiteral
  · cases (hasNonDecimalDigit s.params.layout s.buf && s.params.strictDigits) <;> simp [h, DecodeResult.isMeas]
  · simp [h, DecodeResult.isMeas]

theorem toReport_ne_nodata (r : DecodeResult) : r.toReport ≠ .nodata := by
  cases r <;> simp [DecodeResult.toReport]

end Sys2Proof.Machine
end

