-- ==== Sys2Proof/Laws/Exec.lean ====
section
/-! SUPPORT. What each operation can do where it answers a next state (one inversion lemma per meaning), and what a step
does with each kind of arrival. -/

namespace Sys2Proof.Machine

/-- Where `CLK.SAMPLE` answers, it stored the bit at a slot of the buffer. -/
theorem exec_clkSample_next {d : Level} {s t : State} :
    exec (.clkSample d) s = .next t ↔
      s.clocks ≠ s.params.nBits ∧ ∃ i, slotIndex? s.params.nNibbles s.bytePos = some i ∧
      t = { quiet s with
            clocks := s.clocks + 1
            buf := if d = .high then addBit s.params.nibbleW s.buf i s.bitPos else s.buf
            bitPos := nextBitPos s.params.nibbleW s.bitPos
            bytePos := nextBytePos s.params.nibbleW s.bitPos s.bytePos } := by
  simp only [exec, execClkSample, whenSelected_next, Bool.not_eq_true', not_frameComplete_iff]
  cases slotIndex? s.params.nNibbles s.bytePos <;> simp [eq_comm]

theorem exec_clkOverrun_next {d : Level} {s t : State} :
    exec (.clkOverrun d) s = .next t ↔ s.clocks = s.params.nBits ∧
      t = { quiet s with overrunCount := satInc s.params.ovrW s.overrunCount } := by
  simp only [exec, execClkOverrun, whenSelected_next, frameComplete_iff, Host.Outcome.next.injEq, eq_comm (a := t)]

theorem exec_tickAwHold_next {s t : State} :
    exec .tickAwHold s = .next t ↔ (s.acq = .awaitingWindow ∧ s.elapsed.toNat + 1 < s.params.idleTicks) ∧
      t = { beginTick s with req := .high, elapsed := s.elapsed + 1 } := by
  simp only [exec, execTickAwHold, whenSelected_next, Bool.and_eq_true, beq_iff_eq, Bool.not_eq_true',
    not_windowExpired_iff, Host.Outcome.next.injEq]
  constructor <;> rintro ⟨h, rfl⟩ <;> exact ⟨h, rfl⟩

theorem exec_tickAwExpire_next {s t : State} :
    exec .tickAwExpire s = .next t ↔ (s.acq = .awaitingWindow ∧ s.params.idleTicks ≤ s.elapsed.toNat + 1) ∧
      t = { beginTick s with req := .high, elapsed := 0, acq := .requestSent } := by
  simp only [exec, execTickAwExpire, whenSelected_next, Bool.and_eq_true, beq_iff_eq, windowExpired_iff,
    Host.Outcome.next.injEq]
  constructor <;> rintro ⟨h, rfl⟩ <;> exact ⟨h, rfl⟩

theorem exec_tickRs_next {s t : State} :
    exec .tickRs s = .next t ↔ s.acq = .requestSent ∧
      t = { clearAcquisition (beginTick s) with req := .low, acq := .awaitingData } := by
  simp only [exec, execTickRs, whenSelected_next, beq_iff_eq, Host.Outcome.next.injEq]
  constructor <;> rintro ⟨h, rfl⟩ <;> exact ⟨h, rfl⟩

theorem exec_tickAdDoneOk_next {s t : State} :
    exec .tickAdDoneOk s = .next t ↔
      (s.acq = .awaitingData ∧ s.clocks = s.params.nBits ∧ decodeSucceeds s = true) ∧ t = completeFrame s := by
  simp only [exec, execTickAdDoneOk, whenSelected_next, Bool.and_eq_true, beq_iff_eq, frameComplete_iff,
    Host.Outcome.next.injEq, and_assoc, eq_comm (a := t)]

theorem exec_tickAdDoneErr_next {s t : State} :
    exec .tickAdDoneErr s = .next t ↔
      (s.acq = .awaitingData ∧ s.clocks = s.params.nBits ∧ decodeSucceeds s = false) ∧ t = completeFrame s := by
  simp only [exec, execTickAdDoneErr, whenSelected_next, Bool.and_eq_true, beq_iff_eq, frameComplete_iff,
    Bool.not_eq_true', Host.Outcome.next.injEq, and_assoc, eq_comm (a := t)]

theorem exec_tickAdTimeout_next {s t : State} :
    exec .tickAdTimeout s = .next t ↔
      (s.acq = .awaitingData ∧ s.clocks ≠ s.params.nBits ∧ s.params.timeoutTicks < s.elapsed.toNat + 1) ∧
      t = endCycle .nodata (beginTick s) := by
  simp only [exec, execTickAdTimeout, whenSelected_next, Bool.and_eq_true, beq_iff_eq, Bool.not_eq_true',
    not_frameComplete_iff, timedOut_iff, Host.Outcome.next.injEq, and_assoc, eq_comm (a := t)]

theorem exec_tickAdWait_next {s t : State} :
    exec .tickAdWait s = .next t ↔
      (s.acq = .awaitingData ∧ s.clocks ≠ s.params.nBits ∧ s.elapsed.toNat + 1 ≤ s.params.timeoutTicks) ∧
      t = { beginTick s with elapsed := s.elapsed + 1 } := by
  simp only [exec, execTickAdWait, whenSelected_next, Bool.and_eq_true, beq_iff_eq, Bool.not_eq_true',
    not_frameComplete_iff, not_timedOut_iff, Host.Outcome.next.injEq, and_assoc, eq_comm (a := t)]

/-- The three operations of the Decoder always answer, and only show its result. -/
theorem exec_function_next {i : Instr} {s t : State} (hi : eventOf i = none) (h : exec i s = .next t) :
    ∃ b, t = callDecoder b s := by
  cases i <;> simp [eventOf] at hi <;> exact ⟨_, (Host.Outcome.next.inj h).symm⟩

/-! ### One event -/

/-- Everything one event can do, row by row of the operation map (R83). -/
theorem react_cases {e : Event} {s t : State} (h : react e s = .next t) :
    (e = .rst ∧ execRst s = .next t) ∨
    (∃ d, e = .clkFall d ∧ exec (.clkSample d) s = .next t) ∨
    (∃ d, e = .clkFall d ∧ exec (.clkOverrun d) s = .next t) ∨
    (e = .tick ∧ exec .tickAwHold s = .next t) ∨
    (e = .tick ∧ exec .tickAwExpire s = .next t) ∨
    (e = .tick ∧ exec .tickRs s = .next t) ∨
    (e = .tick ∧ s.acq = .awaitingData ∧ s.clocks = s.params.nBits ∧ t = completeFrame s) ∨
    (e = .tick ∧ exec .tickAdTimeout s = .next t) ∨
    (e = .tick ∧ exec .tickAdWait s = .next t) := by
  unfold react at h
  rcases e with _ | _ | d
  · cases ha : s.acq with
    | awaitingWindow =>
      simp only [ha, operationOf] at h
      split at h
      · exact .inr (.inr (.inr (.inr (.inl ⟨rfl, h⟩))))
      · exact .inr (.inr (.inr (.inl ⟨rfl, h⟩)))
    | requestSent => simp only [ha, operationOf] at h; exact .inr (.inr (.inr (.inr (.inr (.inl ⟨rfl, h⟩)))))
    | awaitingData =>
      simp only [ha, operationOf] at h
      split at h
      · split at h
        · obtain ⟨⟨-, hc, -⟩, ht⟩ := exec_tickAdDoneOk_next.1 h
          exact .inr (.inr (.inr (.inr (.inr (.inr (.inl ⟨rfl, rfl, hc, ht⟩))))))
        · obtain ⟨⟨-, hc, -⟩, ht⟩ := exec_tickAdDoneErr_next.1 h
          exact .inr (.inr (.inr (.inr (.inr (.inr (.inl ⟨rfl, rfl, hc, ht⟩))))))
      · split at h
        · exact .inr (.inr (.inr (.inr (.inr (.inr (.inr (.inl ⟨rfl, h⟩)))))))
        · exact .inr (.inr (.inr (.inr (.inr (.inr (.inr (.inr ⟨rfl, h⟩)))))))
  · exact .inl ⟨rfl, h⟩
  · simp only [operationOf] at h
    split at h
    · exact .inr (.inr (.inl ⟨d, rfl, h⟩))
    · exact .inr (.inl ⟨d, rfl, h⟩)

/-- A tick is always answered; an edge is answered wherever `byte_pos` names a slot or the frame is complete. -/
theorem react_answers (e : Event) (s : State)
    (hp : s.clocks ≠ s.params.nBits → s.bytePos < s.params.nNibbles) :
    ∃ t, react e s = .next t := by
  rcases e with _ | _ | d
  · cases ha : s.acq with
    | awaitingWindow =>
      cases hw : windowExpired s <;> simp [react, operationOf, ha, hw, exec, execTickAwHold, execTickAwExpire]
    | requestSent => simp [react, operationOf, ha, exec, execTickRs]
    | awaitingData =>
      cases hf : frameComplete s <;> cases hv : decodeSucceeds s <;> cases ht : timedOut s <;>
        simp [react, operationOf, ha, hf, hv, ht, exec, execTickAdDoneOk, execTickAdDoneErr, execTickAdTimeout,
          execTickAdWait]
  · exact ⟨_, rfl⟩
  · cases hf : frameComplete s with
    | true => simp [react, operationOf, hf, exec, execClkOverrun]
    | false =>
      have hb := hp ((not_frameComplete_iff s).1 hf)
      have hs : slotIndex? s.params.nNibbles s.bytePos = some s.bytePos := slotIndex?_eq_some.2 ⟨rfl, hb⟩
      simp [react, operationOf, hf, exec, execClkSample, hs]

/-! ### Each row of the map, forwards -/

theorem react_hold {s : State} (ha : s.acq = .awaitingWindow) (he : s.elapsed.toNat + 1 < s.params.idleTicks) :
    react .tick s = .next { beginTick s with req := .high, elapsed := s.elapsed + 1 } := by
  simp only [react, operationOf, ha, conditionsOf_windowExpired, (not_windowExpired_iff s).2 he]
  exact exec_tickAwHold_next.2 ⟨⟨ha, he⟩, rfl⟩

theorem react_expire {s : State} (ha : s.acq = .awaitingWindow) (he : s.params.idleTicks ≤ s.elapsed.toNat + 1) :
    react .tick s = .next { beginTick s with req := .high, elapsed := 0, acq := .requestSent } := by
  simp only [react, operationOf, ha, conditionsOf_windowExpired, (windowExpired_iff s).2 he]
  exact exec_tickAwExpire_next.2 ⟨⟨ha, he⟩, rfl⟩

theorem react_request {s : State} (ha : s.acq = .requestSent) :
    react .tick s = .next { clearAcquisition (beginTick s) with req := .low, acq := .awaitingData } := by
  simp only [react, operationOf, ha]
  exact exec_tickRs_next.2 ⟨ha, rfl⟩

theorem react_done {s : State} (ha : s.acq = .awaitingData) (hc : s.clocks = s.params.nBits) :
    react .tick s = .next (completeFrame s) := by
  cases hv : decodeSucceeds s <;>
    simp only [react, operationOf, ha, conditionsOf_frameComplete, (frameComplete_iff s).2 hc,
      conditionsOf_decodes, hv, if_true]
  · exact exec_tickAdDoneErr_next.2 ⟨⟨ha, hc, hv⟩, rfl⟩
  · exact exec_tickAdDoneOk_next.2 ⟨⟨ha, hc, hv⟩, rfl⟩

theorem react_timeout {s : State} (ha : s.acq = .awaitingData) (hc : s.clocks ≠ s.params.nBits)
    (he : s.params.timeoutTicks < s.elapsed.toNat + 1) :
    react .tick s = .next (endCycle .nodata (beginTick s)) := by
  simp only [react, operationOf, ha, conditionsOf_frameComplete, (not_frameComplete_iff s).2 hc, conditionsOf_timedOut,
    (timedOut_iff s).2 he]
  exact exec_tickAdTimeout_next.2 ⟨⟨ha, hc, he⟩, rfl⟩

theorem react_wait {s : State} (ha : s.acq = .awaitingData) (hc : s.clocks ≠ s.params.nBits)
    (he : s.elapsed.toNat + 1 ≤ s.params.timeoutTicks) :
    react .tick s = .next { beginTick s with elapsed := s.elapsed + 1 } := by
  simp only [react, operationOf, ha, conditionsOf_frameComplete, (not_frameComplete_iff s).2 hc, conditionsOf_timedOut,
    (not_timedOut_iff s).2 he]
  exact exec_tickAdWait_next.2 ⟨⟨ha, hc, he⟩, rfl⟩

/-! ### Traces -/

/-- A trace goes on from where its beginning leads. -/
theorem reactAll_append {es fs : List Event} {s t : State} (h : reactAll es s = .next t) :
    reactAll (es ++ fs) s = reactAll fs t := by
  induction es generalizing s with
  | nil => cases h; rfl
  | cons e es ih =>
    simp only [reactAll, List.cons_append] at h ⊢
    split at h
    · rename_i u hu; exact ih h
    · cases h
    · cases h

theorem reactAll_snoc {es : List Event} {e : Event} {s t u : State} (h : reactAll es s = .next t)
    (he : react e t = .next u) : reactAll (es ++ [e]) s = .next u := by
  rw [reactAll_append h]; simp only [reactAll, he]

/-! ### One step -/

theorem step_event {s : State} {e : Event} {rest : List Arrival} (h : s.stimulus = .event e :: rest) :
    step s = react e { s with stimulus := rest } := by
  simp only [step, fetch, h, decode_selectorOf, react, conditionsOf_stimulus]

theorem step_together {s : State} {x y : Event} {rest : List Arrival} (h : s.stimulus = .together x y :: rest) :
    step s = react (orderOfPair s.draws x y).1
      { s with stimulus := .event (orderOfPair s.draws x y).2 :: rest, draws := s.draws + 1 } := by
  simp only [step, fetch, h, decode_selectorOf, react, conditionsOf_stimulus_draws]

theorem step_decoderCall {s : State} {v : BitVec 56} {rest : List Arrival} (h : s.stimulus = .decoderCall v :: rest) :
    step s = match decodeFunctionWord v with
      | .ok i => exec i { s with stimulus := rest }
      | .error r => .refused (.undecodable r) := by
  cases hd : decodeFunctionWord v <;> simp only [step, fetch, h, decode_bytesOfFunctionWord, hd]

theorem step_nothing {s : State} (h : s.stimulus = []) : step s = .next (quiet s) := by
  simp only [step, fetch, h]

/-- A function word decodes to an operation of the Decoder. -/
theorem decodeFunctionWord_eventOf {v : BitVec 56} {i : Instr} (h : decodeFunctionWord v = .ok i) :
    eventOf i = none := by
  simp only [decodeFunctionWord] at h
  split at h
  · split at h <;> cases h <;> rfl
  · split at h <;> cases h; rfl

end Sys2Proof.Machine
end

