-- ==== Sys2Proof/Laws/PerInstr.lean ====
section
/-! SUPPORT. Laws of every operation as syntax, one lemma per constructor. -/

namespace Sys2Proof.Laws

/-- How many bytes an operation's encoding has: one for an event row, seven for a row of the 52-bit format. -/
def byteCount : Instr → Nat
  | .frameValid _ => 7
  | .frameInvalid _ _ => 7
  | .rst => 1
  | .clkSample _ => 1
  | .clkOverrun _ => 1
  | .tickAwHold => 1
  | .tickAwExpire => 1
  | .tickRs => 1
  | .tickAdDoneOk => 1
  | .tickAdDoneErr => 1
  | .tickAdTimeout => 1
  | .tickAdWait => 1
  | .decode _ _ => 7

namespace EncodedLength

/-- The encoding has the length of its row's format. -/
def Statement (i : Instr) : Prop := (encode i).length = byteCount i

theorem frameValid (x : FrameFields) : Statement (.frameValid x) := rfl
theorem frameInvalid (x : FrameFields) (p : Nibble) : Statement (.frameInvalid x p) := rfl
theorem rst : Statement .rst := rfl
theorem clkSample (d : Level) : Statement (.clkSample d) := by cases d <;> rfl
theorem clkOverrun (d : Level) : Statement (.clkOverrun d) := by cases d <;> rfl
theorem tickAwHold : Statement .tickAwHold := rfl
theorem tickAwExpire : Statement .tickAwExpire := rfl
theorem tickRs : Statement .tickRs := rfl
theorem tickAdDoneOk : Statement .tickAdDoneOk := rfl
theorem tickAdDoneErr : Statement .tickAdDoneErr := rfl
theorem tickAdTimeout : Statement .tickAdTimeout := rfl
theorem tickAdWait : Statement .tickAdWait := rfl
theorem decode (x : FrameFields) (p : Nibble) : Statement (.decode x p) := rfl

end EncodedLength

end Sys2Proof.Laws
end

