-- ==== Sys2Proof/Laws/Run.lean ====
section
/-! SUPPORT. Runs, one step at a time, and what a reaction never touches: what is still to arrive, and the parameters. -/

namespace Sys2Proof.Machine

theorem run_zero (s : State) : Host.Core.run Sys2Proof.core 0 s = .next s := rfl

/-- A run of any machine, unfolded once. -/
theorem core_run_succ (M : Host.Core) (n : Nat) (s : M.State) :
    Host.Core.run M (n + 1) s =
      match M.step s with
      | .next t => Host.Core.run M n t
      | .fault r => .fault r
      | .refused r => .refused r := rfl

theorem run_of_next {n : Nat} {s t : State} (h : step s = .next t) :
    Host.Core.run Sys2Proof.core (n + 1) s = Host.Core.run Sys2Proof.core n t := by
  have h' : Sys2Proof.core.step s = .next t := h
  exact (core_run_succ Sys2Proof.core n s).trans (by rw [h'])

theorem run_of_fault {n : Nat} {s : State} {r : Fault} (h : step s = .fault r) :
    Host.Core.run Sys2Proof.core (n + 1) s = .fault r := by
  have h' : Sys2Proof.core.step s = .fault r := h
  exact (core_run_succ Sys2Proof.core n s).trans (by rw [h'])

theorem run_of_refused {n : Nat} {s : State} {r : Refusal} (h : step s = .refused r) :
    Host.Core.run Sys2Proof.core (n + 1) s = .refused r := by
  have h' : Sys2Proof.core.step s = .refused r := h
  exact (core_run_succ Sys2Proof.core n s).trans (by rw [h'])

/-- One more step of a run of this machine. -/
theorem run_succ (n : Nat) (s : State) :
    Host.Core.run Sys2Proof.core (n + 1) s =
      match step s with
      | .next t => Host.Core.run Sys2Proof.core n t
      | .fault r => .fault r
      | .refused r => .refused r := by
  cases h : step s with
  | next t => exact run_of_next h
  | fault r => exact run_of_fault h
  | refused r => exact run_of_refused h

/-- A reaction leaves the parameters and what is still to arrive alone. -/
theorem react_surroundings {e : Event} {s t : State} (h : react e s = .next t) :
    t.params = s.params ∧ t.stimulus = s.stimulus ∧ t.draws = s.draws := by
  rcases react_cases h with h' | ⟨d, rfl, h'⟩ | ⟨d, rfl, h'⟩ | ⟨rfl, h'⟩ | ⟨rfl, h'⟩ | ⟨rfl, h'⟩ | ⟨rfl, -, -, rfl⟩ |
    ⟨rfl, h'⟩ | ⟨rfl, h'⟩
  · obtain ⟨rfl, h'⟩ := h'; cases h'; exact ⟨rfl, rfl, rfl⟩
  · obtain ⟨-, i, -, rfl⟩ := exec_clkSample_next.1 h'; exact ⟨rfl, rfl, rfl⟩
  · obtain ⟨-, rfl⟩ := exec_clkOverrun_next.1 h'; exact ⟨rfl, rfl, rfl⟩
  · obtain ⟨-, rfl⟩ := exec_tickAwHold_next.1 h'; exact ⟨rfl, rfl, rfl⟩
  · obtain ⟨-, rfl⟩ := exec_tickAwExpire_next.1 h'; exact ⟨rfl, rfl, rfl⟩
  · obtain ⟨-, rfl⟩ := exec_tickRs_next.1 h'; exact ⟨rfl, rfl, rfl⟩
  · exact ⟨rfl, rfl, rfl⟩
  · obtain ⟨-, rfl⟩ := exec_tickAdTimeout_next.1 h'; exact ⟨rfl, rfl, rfl⟩
  · obtain ⟨-, rfl⟩ := exec_tickAdWait_next.1 h'; exact ⟨rfl, rfl, rfl⟩

end Sys2Proof.Machine
end

