-- ==== Sys2Proof/Tests/Slice0.lean ====
section
/-! SUPPORT. Tests: well-formedness smoke, decoding of words written out from the tables of 30_encoding.md, at most two
single-step tests for each operation with the values of 95_test_vectors.md, and for each statement with hypotheses a
named state and operands that meet them. -/

namespace Sys2Proof.Tests

open Sys2Proof Sys2Proof.Machine

/-! ### The frames of 95_test_vectors.md section 0 -/

def bufA : FrameBuffer := [0, 0, 0, 0, 0, 1, 2, 3, 4, 5, 6, 2, 0]
def bufB : FrameBuffer := [0, 0, 0, 0, 8, 0, 0, 1, 0, 0, 0, 2, 1]
def bufC : FrameBuffer := [0, 0, 0, 0, 0, 1, 2, 3, 4, 5, 6, 5, 0]
def bufD : FrameBuffer := [15, 15, 15, 15, 8, 0, 1, 2, 3, 4, 5, 2, 0]
def fieldsA : FrameFields := ⟨0, 0, 1, 2, 3, 4, 5, 6, 0⟩
def measA : Measurement := ⟨.positive, #v[1, 2, 3, 4, 5, 6], 2, .metric⟩
def measB : Measurement := ⟨.negative, #v[0, 0, 1, 0, 0, 0], 2, .imperial⟩

/-- A state by its items, in the notation of 95_test_vectors.md: state / elapsed / req / clocks / (byte_pos, bit_pos) /
overrun_count / buf. -/
def at_ (acq : AcquisitionState) (elapsed : BitVec 8) (req : Level) (clocks bytePos : Nat) (bitPos : BitPos)
    (ovr : Nat) (buf : FrameBuffer) : State :=
  { State.reset with acq, elapsed, req, clocks, bytePos, bitPos, overrunCount := ovr, buf }

/-- A state by its Scheduler items, the Sampler cleared. -/
def sched (acq : AcquisitionState) (elapsed : BitVec 8) (req : Level) : State := at_ acq elapsed req 0 0 0 0 (clearedBuffer 13)

/-- A state with a complete frame. -/
def full (acq : AcquisitionState) (elapsed : BitVec 8) (req : Level) (ovr : Nat) (buf : FrameBuffer) : State :=
  at_ acq elapsed req 52 13 0 ovr buf

def strict : Config.Params := { Config.Params.source with strictDigits := true }

/-- Another instance of the parameters: frames of 9 slots of 2 bits, the unit first, the sign last and marked by 3, the
literal 1. -/
def narrow : Config.Params :=
  { Config.Params.source with
    nBits := 18, nNibbles := 9, nibbleW := 2
    layout := { idxSign := 8, idxDigFirst := 1, idxDigLast := 6, idxDp := 7, idxUnit := 0, dpLiteral := 1, signNeg := 3 } }

/-- A complete frame of that instance: unit 1, digits 1 2 3 0 1 2, decimal-point nibble 1, sign 3. -/
def bufN : FrameBuffer := [1, 1, 2, 3, 0, 1, 2, 1, 3]

/-- A longer frame: 20 slots of 4 bits, 80 bits in all, the fields where the source has them. -/
def wide : Config.Params := { Config.Params.source with nBits := 80, nNibbles := 20 }

/-- Whether the outcome is a next state that passes the check. -/
def passes (o : Result) (p : State → Bool) : Bool :=
  match o with
  | .next t => p t
  | .fault _ => false
  | .refused _ => false

/-- Whether the eight items are those of the second state. -/
def shows (u t : State) : Bool :=
  decide (t.buf = u.buf) && decide (t.clocks = u.clocks) && decide (t.bitPos = u.bitPos) &&
    decide (t.bytePos = u.bytePos) && decide (t.overrunCount = u.overrunCount) && decide (t.acq = u.acq) &&
    decide (t.elapsed = u.elapsed) && decide (t.req = u.req)

/-! ### Well-formedness: each check refuses an ill-formed term -/

theorem test_wellFormed_frameInvalid_with_literal_two : (Instr.frameInvalid fieldsA 2).wellFormed = false := by decide
theorem test_wellFormed_frameInvalid_others :
    ∀ p : Nibble, p ≠ 2 → (Instr.frameInvalid fieldsA p).wellFormed = true := by decide
theorem test_wellFormed_two_ticks_together : coincidenceWellFormed .tick .tick = false := by decide
theorem test_wellFormed_two_edges_together : coincidenceWellFormed (.clkFall .low) (.clkFall .high) = false := by decide
theorem test_wellFormed_edge_and_tick : coincidenceWellFormed (.clkFall .high) .tick = true := by decide
theorem test_params_constraints :
    Config.Params.source.wf = true ∧ { Config.Params.source with ovrW := 0 }.wf = false ∧
    { Config.Params.source with idleTicks := 0 }.wf = false ∧ { Config.Params.source with idleTicks := 256 }.wf = false ∧
    { Config.Params.source with timeoutTicks := 255 }.wf = false := by decide
theorem test_params_geometry_and_layout :
    narrow.wf = true ∧ { Config.Params.source with nBits := 51 }.wf = false ∧
    { Config.Params.source with nBits := 0, nibbleW := 0 }.wf = false ∧
    wide.wf = true ∧ { narrow with nBits := 10, nNibbles := 5 }.wf = false ∧
    { Config.Params.source with layout := { Config.Layout.source with idxDigLast := 9 } }.wf = false ∧
    { Config.Params.source with layout := { Config.Layout.source with dpLiteral := 7 } }.wf = false := by decide

/-! ### Decoding: words written out from R71, R82 and R83 -/

/-- `uuuu 0010 ffff eeee dddd cccc bbbb aaaa ssss hhhh*4` of frame A, under the tag 0. -/
theorem test_decode_frame_A :
    decodeFunctionWord 0b0000_0000_0010_0110_0101_0100_0011_0010_0001_0000_0000_0000_0000_0000 =
      .ok (.frameValid fieldsA) := by decide
/-- Frame E of 95_test_vectors.md: W = 0xF20000C930000. -/
theorem test_decode_frame_E :
    decodeFunctionWord 0b0000_1111_0010_0000_0000_0000_0000_1100_1001_0011_0000_0000_0000_0000 =
      .ok (.frameValid ⟨0, 3, 9, 12, 0, 0, 0, 0, 15⟩) := by decide
/-- Frame C: the decimal-point nibble is 5. -/
theorem test_decode_frame_C :
    decodeFunctionWord 0b0000_0000_0101_0110_0101_0100_0011_0010_0001_0000_0000_0000_0000_0000 =
      .ok (.frameInvalid fieldsA 5) := by decide
/-- Frame A under the tag 1 of `DECODE` (log entry 5). -/
theorem test_decode_call :
    decodeFunctionWord 0b0001_0000_0010_0110_0101_0100_0011_0010_0001_0000_0000_0000_0000_0000 =
      .ok (.decode fieldsA 2) := by decide
theorem test_decode_unused_tag : decodeFunctionWord (2#4 ++ 0#52) = .error (.functionTag 2) := by decide
/-- Selector `01 xx` (R83). -/
theorem test_decode_rst : decode [0b0000_0100] = .ok .rst ∧ decode [0b0000_0111] = .ok .rst := by decide
/-- Selector `1d xx`, told apart by `frame_complete` (R83). -/
theorem test_decode_edges :
    decode [0b0000_1000] = .ok (.clkSample .low) ∧ decode [0b0000_1111] = .ok (.clkSample .high) ∧
    decode [0b0001_1000] = .ok (.clkOverrun .low) ∧ decode [0b0001_1101] = .ok (.clkOverrun .high) := by decide
/-- Selectors `00 00`, `00 01`, `00 10` with the further conditions of R83; `00 11` cannot occur. -/
theorem test_decode_ticks :
    decode [0b0000_0000] = .ok .tickAwHold ∧ decode [0b0010_0000] = .ok .tickAwExpire ∧
    decode [0b0000_0001] = .ok .tickRs ∧ decode [0b1001_0010] = .ok .tickAdDoneOk ∧
    decode [0b0001_0010] = .ok .tickAdDoneErr ∧ decode [0b0100_0010] = .ok .tickAdTimeout ∧
    decode [0b0000_0010] = .ok .tickAdWait ∧ decode [0b0000_0011] = .error .stateCodeThree := by decide
/-- R128: `frame_complete` outranks `timed_out` in the map. -/
theorem test_decode_completion_first : decode [0b1101_0010] = .ok .tickAdDoneOk := by decide
theorem test_decode_wrong_length : decode [] = .error (.wrongLength 0) ∧ decode [0, 0] = .error (.wrongLength 2) := by
  decide
/-- R85: `T` = 0x00, `R` = 0x01, `C0` = 0x02, `C1` = 0x03; any other byte is rejected. -/
theorem test_trace_bytes :
    decodeTrace [0x01, 0x00, 0x02, 0x03] = .ok [.rst, .tick, .clkFall .low, .clkFall .high] ∧
    decodeTrace [0x00, 0x04] = .error (.traceByte 4) := by decide
/-- The frame words of 95_test_vectors.md section 0. -/
theorem test_frame_words :
    frameWord bufA = 0x0265432100000 ∧ frameWord bufB = 0x1200010080000 ∧ frameWord bufC = 0x0565432100000 ∧
    frameWord bufD = 0x025432108FFFF := by decide
/-- The bytes of `F[B]`, as 95_test_vectors.md section 0 lists them. -/
theorem test_frame_events_B :
    encodeTrace (frameEvents Config.Params.source bufB) =
      [2, 2, 2, 2, 2, 2, 2, 2, 2, 2, 2, 2, 2, 2, 2, 2, 2, 2, 2, 3, 2, 2, 2, 2, 2, 2, 2, 2,
        3, 2, 2, 2, 2, 2, 2, 2, 2, 2, 2, 2, 2, 2, 2, 2, 2, 3, 2, 2, 3, 2, 2, 2] := by decide
/-- The canonical cells of frame B (log entry 3). -/
theorem test_buffer_cells : bufferCells bufB = [(4, 8), (7, 1), (11, 2), (12, 1)] := by decide
/-- The point stands after the digit at index 8 (R154). -/
theorem test_point_index : pointIndex Config.Layout.source 2 = some 8 ∧ pointIndex Config.Layout.source 0 = some 10 ∧
    pointIndex Config.Layout.source 6 = none := by decide
/-- Reports as flat codes (R84). -/
theorem test_report_codes :
    reportKind none = 0 ∧ reportKind (some (.meas measA)) = 1 ∧ reportKind (some (.ierr ⟨bufC, 3⟩)) = 2 ∧
    reportKind (some .nodata) = 3 ∧ packMeasurement measB = 0b01_1_0000_0000_0001_0000_0000_0000_010_1 ∧
    packDecodeError 8 ⟨bufC, 3⟩ = 0b10_00000011_0000_0101_0110_0101_0100_0011_0010_0001_0000_0000_0000_0000_0000 := by
  decide
/-- The reading of S7 and S8 as the rules have it: 1234.56 and -0010.00 (R160). -/
theorem test_scaled_value : measA.scaledValue = 123456 ∧ measB.scaledValue = -1000 := by decide

/-! ### Single steps, with the values of 95_test_vectors.md -/

/-- 2.1 (f) and (j) -/
theorem test_clkSample_second_and_last_bit :
    passes (exec (.clkSample .high) (at_ .awaitingData 0 .low 5 1 1 0 [0, 1, 0, 0, 0, 0, 0, 0, 0, 0, 0, 0, 0]))
      (shows (at_ .awaitingData 0 .low 6 1 2 0 [0, 3, 0, 0, 0, 0, 0, 0, 0, 0, 0, 0, 0])) = true ∧
    passes (exec (.clkSample .low) (at_ .awaitingData 0 .low 51 12 3 0 bufB))
      (shows (full .awaitingData 0 .low 0 bufB)) = true := by decide
/-- 2.1 (k) -/
theorem test_clkOverrun_counts :
    passes (exec (.clkOverrun .high) (full .awaitingWindow 0 .high 0 bufA)) (shows (full .awaitingWindow 0 .high 1 bufA)) =
      true := by decide
/-- 2.1 (l), (m): saturation at 255 -/
theorem test_clkOverrun_saturates :
    passes (exec (.clkOverrun .low) (full .awaitingData 7 .low 254 bufA))
      (shows (full .awaitingData 7 .low 255 bufA)) = true ∧
    passes (exec (.clkOverrun .high) (full .awaitingData 7 .low 255 bufA))
      (shows (full .awaitingData 7 .low 255 bufA)) = true := by decide
/-- 2.2 (d): just after a timeout the request line rises -/
theorem test_tickAwHold_raises_request :
    passes (exec .tickAwHold (sched .awaitingWindow 0 .low)) (shows (sched .awaitingWindow 1 .high)) = true := by decide
/-- 2.2 (m) -/
theorem test_tickAwHold_ignores_clocks :
    passes (exec .tickAwHold (full .awaitingWindow 3 .high 0 bufA)) (shows (full .awaitingWindow 4 .high 0 bufA)) = true := by
  decide
/-- 2.2 (c): the tenth tick -/
theorem test_tickAwExpire_tenth_tick :
    passes (exec .tickAwExpire (sched .awaitingWindow 9 .high)) (shows (sched .requestSent 0 .high)) = true := by decide
/-- 2.2 (e) -/
theorem test_tickRs_clears :
    passes (exec .tickRs (full .requestSent 0 .high 5 bufC)) (shows (sched .awaitingData 0 .low)) = true := by decide
/-- 2.2 (i) -/
theorem test_tickAdDoneOk_reports :
    passes (exec .tickAdDoneOk (full .awaitingData 0 .low 0 bufA))
      (fun t => shows (full .awaitingWindow 0 .high 0 bufA) t && decide (t.sink = [(1, .meas measA)])) = true := by decide
/-- 2.2 (k): completion wins over timeout -/
theorem test_tickAdDoneOk_on_the_timeout_tick :
    passes (schedulerStep (full .awaitingData 250 .low 0 bufA))
      (fun t => shows (full .awaitingWindow 0 .high 0 bufA) t && decide (t.rpt = some (.meas measA))) = true := by decide
/-- 2.2 (j) -/
theorem test_tickAdDoneErr_reports :
    passes (exec .tickAdDoneErr (full .awaitingData 17 .low 3 bufC))
      (fun t => shows (full .awaitingWindow 0 .high 3 bufC) t && decide (t.sink = [(1, .ierr ⟨bufC, 3⟩)])) = true := by
  decide
/-- 2.2 (h) -/
theorem test_tickAdTimeout_keeps_request_low :
    passes (exec .tickAdTimeout (at_ .awaitingData 250 .low 6 1 2 0 [13, 2, 0, 0, 0, 0, 0, 0, 0, 0, 0, 0, 0]))
      (fun t =>
        shows (at_ .awaitingWindow 0 .low 6 1 2 0 [13, 2, 0, 0, 0, 0, 0, 0, 0, 0, 0, 0, 0]) t &&
          decide (t.sink = [(1, .nodata)])) = true := by decide
/-- 2.2 (l): one bit short is a timeout -/
theorem test_tickAdTimeout_one_bit_short :
    passes (schedulerStep (at_ .awaitingData 250 .low 51 12 3 0 bufA)) (fun t => decide (t.rpt = some .nodata)) = true := by
  decide
/-- 2.2 (g) -/
theorem test_tickAdWait_last :
    passes (exec .tickAdWait (sched .awaitingData 249 .low)) (shows (sched .awaitingData 250 .low)) = true := by decide
/-- 2.2 (n) -/
theorem test_rst_from_anywhere :
    passes (exec .rst (full .awaitingData 17 .low 3 bufC)) (fun t => shows State.reset t && decide (t.rpt = none)) = true := by
  decide
/-- 2.3 (a), (n) -/
theorem test_frameValid_result :
    passes (exec (.frameValid fieldsA) State.reset) (fun t => decide (t.decoderOut = some (.meas measA))) = true ∧
    passes (exec (.frameValid { fieldsA with u := 15 }) State.reset)
      (fun t => decide (t.decoderOut = some (.meas { measA with unit := .imperial }))) = true := by decide
/-- 2.3 (g) -/
theorem test_frameInvalid_result :
    passes (exec (.frameInvalid fieldsA 5) (full .awaitingData 0 .low 3 bufA))
      (fun t => shows (full .awaitingData 0 .low 3 bufA) t && decide (t.decoderOut = some (.ierr ⟨bufC, 3⟩))) = true := by
  decide
/-- 2.3 (l) and (m): a digit nibble above 9, with `STRICT_DIGITS` off and on -/
theorem test_decode_non_decimal_digit :
    passes (exec (.decode { fieldsA with c := 0xC } 2) State.reset)
      (fun t => decide (t.decoderOut = some (.meas ⟨.positive, #v[1, 2, 12, 4, 5, 6], 2, .metric⟩))) = true ∧
    passes (exec (.decode { fieldsA with c := 0xC } 2) { full .awaitingData 0 .low 4 bufA with params := strict })
      (fun t => decide (t.decoderOut = some (.ierr ⟨[0, 0, 0, 0, 0, 1, 2, 12, 4, 5, 6, 2, 0], 4⟩))) = true := by decide
/-- 2.3 (k): the header is ignored -/
theorem test_decode_ignores_header :
    passes (exec (.decode ⟨0xFFFF, 8, 0, 1, 2, 3, 4, 5, 0⟩ 2) State.reset)
      (fun t => decide (t.decoderOut = some (.meas ⟨.negative, #v[0, 1, 2, 3, 4, 5], 2, .metric⟩))) = true := by decide
/-- R42 and R80 on a frame that passes the gate and has a digit 0xC, under `STRICT_DIGITS`: `frame_valid` holds, `DECODE`
fails, and the tick performs `TICK.AD.DONE.ERR` (R83, R125; 95_test_vectors.md 2.3 (m)). -/
theorem test_strict_frame_valid_but_rejected :
    frameValid { full .awaitingData 0 .low 4 [0, 0, 0, 0, 0, 1, 2, 12, 4, 5, 6, 2, 0] with params := strict } = true ∧
    passes (exec .tickAdDoneErr
        { full .awaitingData 0 .low 4 [0, 0, 0, 0, 0, 1, 2, 12, 4, 5, 6, 2, 0] with params := strict })
      (fun t => decide (t.rpt = some (.ierr ⟨[0, 0, 0, 0, 0, 1, 2, 12, 4, 5, 6, 2, 0], 4⟩))) = true := by decide
/-- Other instances of the parameters: in slots of 2 bits the carry into the next slot comes after 2 bits and a frame has
18; in a frame of 80 bits the sample at bit 52 goes to slot 13, and an edge after the 80th is an overrun. -/
theorem test_other_geometries :
    passes (exec (.clkSample .high) { at_ .awaitingData 0 .low 1 0 1 0 ((clearedBuffer 9).set 0 1) with params := narrow })
      (shows (at_ .awaitingData 0 .low 2 1 0 0 ((clearedBuffer 9).set 0 3))) = true ∧
    passes (react (.clkFall .high) { at_ .awaitingData 0 .low 18 9 0 0 bufN with params := narrow })
      (shows (at_ .awaitingData 0 .low 18 9 0 1 bufN)) = true ∧
    passes (exec (.clkSample .high) { at_ .awaitingData 0 .low 52 13 0 0 (clearedBuffer 20) with params := wide })
      (shows (at_ .awaitingData 0 .low 53 13 1 0 ((clearedBuffer 20).set 13 1))) = true ∧
    passes (react (.clkFall .low) { at_ .awaitingData 0 .low 80 20 0 0 (clearedBuffer 20) with params := wide })
      (shows (at_ .awaitingData 0 .low 80 20 0 1 (clearedBuffer 20))) = true := by decide
theorem test_decode_narrow :
    decodeFrame narrow bufN 0 = .meas ⟨.negative, #v[1, 2, 3, 0, 1, 2], 1, .imperial⟩ := by decide
/-- The tick race of 2.2 in both orders (R210) -/
theorem test_race_edge_first :
    passes (reactAll [.clkFall .low, .tick] (at_ .awaitingData 250 .low 51 12 3 0 bufA))
      (fun t => shows (full .awaitingWindow 0 .high 0 bufA) t && decide (t.sink = [(1, .meas measA)])) = true := by decide
theorem test_race_tick_first :
    passes (reactAll [.tick, .clkFall .low] (at_ .awaitingData 250 .low 51 12 3 0 bufA))
      (fun t => shows (full .awaitingWindow 0 .low 0 bufA) t && decide (t.sink = [(1, .nodata)])) = true := by decide
/-- A word of the table, placed after reset, is what the next step runs. -/
theorem test_placed_words :
    passes (step (State.reset.withFetchWord 8 0x2)) (shows (sched .awaitingData 1 .high)) = true ∧
    passes (step (State.reset.withFetchWord 8 0x92))
      (fun t => decide (t.rpt = some (.meas ⟨.positive, #v[0, 0, 0, 0, 0, 0], 2, .metric⟩))) = true ∧
    passes (step (State.reset.withFetchWord 56 0x0265432100000)) (fun t => decide (t.decoderOut = some (.meas measA))) =
      true := by decide
/-- With nothing to arrive the block waits. -/
theorem test_step_waits : passes (step State.reset) (shows State.reset) = true := by decide

/-! ### Witnesses: states and operands that meet the hypotheses of the statements -/

/-- In AwaitingData with 51 bits of frame B: the last slot, the last bit. -/
def atLastBit : State := at_ .awaitingData 0 .low 51 12 3 0 bufB
/-- In AwaitingData on the tick at which the timeout would fire, with a complete frame. -/
def atCompletion : State := full .awaitingData 250 .low 0 bufA
def withArrivals (l : List Arrival) (s : State) : State := { s with stimulus := l }

theorem test_witness_StepRunsDecodedOperation :
    (fetch (withArrivals [.event .tick] State.reset) = some ([0x00], State.reset) ∧ decode [0x00] = .ok .tickAwHold) ∧
    (withArrivals [.event .tick, .event .rst] State.reset).stimulus = .event .tick :: [.event .rst] ∧
    ((withArrivals [.decoderCall 0x0265432100000] State.reset).stimulus = .decoderCall 0x0265432100000 :: [] ∧
      decodeFunctionWord 0x0265432100000 = .ok (.frameValid fieldsA)) ∧ State.reset.stimulus = [] := by decide
theorem test_witness_DecodeEncodeRoundTrip :
    (Instr.frameInvalid fieldsA 0).wellFormed = true ∧ (Instr.frameInvalid fieldsA 15).wellFormed = true ∧
    (Instr.decode fieldsA 2).wellFormed = true := by decide
theorem test_witness_DecodedOperationsAreWellFormed :
    decode [0xFF, 0xFF, 0x08, 0x21, 0x43, 0xF5, 0x0F] = .ok (.frameInvalid ⟨0xFFFF, 8, 0, 1, 2, 3, 4, 5, 15⟩ 15) := by decide
theorem test_witness_EncodingsMatchTheTable :
    encode .tickAdTimeout = [0x42] ∧ fieldsA.word 2 &&& 0x0F00000000000 = 0x0200000000000 ∧
    fieldsA.word 3 &&& 0x0F00000000000 ≠ 0x0200000000000 := by decide
theorem test_witness_TraceBytesRoundTrip :
    decodeTrace [0x03, 0x00] = .ok [.clkFall .high, .tick] := by decide
theorem test_witness_PlacedWordRunsNext :
    { Config.Params.source with idleTicks := 2, timeoutTicks := 1 }.wf = true ∧
    decodeTableWord 8 0x42 = some .tickAdTimeout ∧ decodeTableWord 56 0x10265432100000 = some (.decode fieldsA 2) := by
  decide
theorem test_witness_UnusedFunctionTagRefused :
    2 ≤ ((2#4 ++ 0#52 : BitVec 56).extractLsb' 52 4).toNat ∧ 2 ≤ ((15#4 ++ 0#52 : BitVec 56).extractLsb' 52 4).toNat ∧
    (withArrivals [.decoderCall (2#4 ++ 0#52)] State.reset).stimulus = .decoderCall (2#4 ++ 0#52) :: [] := by decide
theorem test_witness_EdgeSelectsSampleOrOverrun :
    (withArrivals [.event (.clkFall .high)] atLastBit).clocks ≠ atLastBit.params.nBits ∧
    (withArrivals [.event (.clkFall .high)] atCompletion).clocks = atCompletion.params.nBits := by decide
theorem test_witness_ClkSampleResult :
    (atLastBit.params.wf = true ∧ atLastBit.clocks ≠ atLastBit.params.nBits ∧ atLastBit.bytePos = 12 ∧
      atLastBit.bytePos < atLastBit.params.nNibbles ∧ atLastBit.bitPos.val < atLastBit.params.nibbleW ∧
      atLastBit.bitPos.val + 1 = atLastBit.params.nibbleW ∧ atLastBit.clocks + 1 = atLastBit.params.nBits ∧
      PointerAgrees atLastBit ∧ UnwrittenBitsZero atLastBit ∧ FitsGeometry atLastBit.params atLastBit.buf) ∧
    (State.reset.params.wf = true ∧ State.reset.buf.length = State.reset.params.nNibbles ∧
      State.reset.clocks ≠ State.reset.params.nBits ∧ State.reset.bytePos < State.reset.params.nNibbles ∧
      State.reset.bitPos.val < State.reset.params.nibbleW ∧
      State.reset.bitPos.val + 1 ≠ State.reset.params.nibbleW) := by decide
theorem test_witness_SampleOutsideTheBufferFaults :
    (at_ .awaitingWindow 0 .high 51 13 0 0 bufA).clocks ≠ Config.Params.source.nBits ∧
    Config.Params.source.nNibbles ≤ (at_ .awaitingWindow 0 .high 51 13 0 0 bufA).bytePos := by decide
theorem test_witness_ClkOverrunResult :
    atCompletion.clocks = atCompletion.params.nBits ∧ 254 < 2 ^ (full .awaitingData 0 .low 254 bufA).params.ovrW - 1 ∧
    2 ^ (full .awaitingData 0 .low 255 bufA).params.ovrW - 1 ≤ 255 := by decide
theorem test_witness_SamplerFrame :
    (∃ t, exec (.clkSample .high) atLastBit = .next t) ∧ slotIndex? atLastBit.params.nNibbles atLastBit.bytePos = some 12 ∧
    (atLastBit.params.wf = true ∧ FitsGeometry atLastBit.params atLastBit.buf ∧ UnwrittenBitsZero atLastBit ∧
      PointerAgrees atLastBit) ∧
    (∃ t, exec (.clkOverrun .low) atCompletion = .next t) := ⟨⟨_, rfl⟩, by decide, by decide, ⟨_, rfl⟩⟩
theorem test_witness_SamplerIgnoresTheScheduler :
    (∃ t, react (.clkFall .high) atLastBit = .next t) ∧ ∃ t, react (.clkFall .high) atCompletion = .next t :=
  ⟨⟨_, rfl⟩, ⟨_, rfl⟩⟩
theorem test_witness_Packed :
    Packed [] State.reset ∧ Packed [] (sched .awaitingData 0 .low) ∧ Packed [] { State.reset with params := narrow, buf := clearedBuffer 9 } ∧
    State.reset.params.wf = true ∧ narrow.wf = true :=
  ⟨⟨by decide, by decide, by decide, by decide, by decide, by decide⟩,
    ⟨by decide, by decide, by decide, by decide, by decide, by decide⟩,
    ⟨by decide, by decide, by decide, by decide, by decide, by decide⟩, by decide, by decide⟩
theorem test_witness_LeadingEdgesShiftTheFrame :
    ([] : List Level).length ≤ Config.Params.source.nBits ∧
    (List.replicate 52 Level.high).length ≤ Config.Params.source.nBits := by decide
theorem test_witness_CompleteFrameIsFrozen :
    atCompletion.clocks = atCompletion.params.nBits ∧ (∃ t, react .tick atCompletion = .next t) ∧ atCompletion.acq ≠ .requestSent :=
  ⟨by decide, ⟨_, rfl⟩, by decide⟩
theorem test_witness_OverrunCountNeverFallsWithinACycle :
    (∃ t, react (.clkFall .low) (full .awaitingData 0 .low 255 bufA) = .next t) ∧
    OverrunFits (full .awaitingData 0 .low 255 bufA) ∧ (full .awaitingData 0 .low 255 bufA).params.wf = true :=
  ⟨⟨_, rfl⟩, by decide, by decide⟩
theorem test_witness_TickAwHoldResult :
    (sched .awaitingWindow 8 .high).params.wf = true ∧ (sched .awaitingWindow 8 .high).acq = .awaitingWindow ∧
    (sched .awaitingWindow 8 .high).elapsed.toNat + 1 < (sched .awaitingWindow 8 .high).params.idleTicks := by decide
theorem test_witness_TickAwExpireResult :
    (sched .awaitingWindow 9 .high).acq = .awaitingWindow ∧
    (sched .awaitingWindow 9 .high).elapsed.toNat + 1 ≥ (sched .awaitingWindow 9 .high).params.idleTicks := by decide
theorem test_witness_TickRsResult : (full .requestSent 0 .high 5 bufC).acq = .requestSent := by decide
theorem test_witness_TickAdDoneResult :
    (full .awaitingData 0 .low 255 bufA).acq = .awaitingData ∧ (full .awaitingData 0 .low 255 bufA).clocks = Config.Params.source.nBits ∧
    decodeFrame Config.Params.source bufA 255 = .meas measA ∧
    decodeFrame Config.Params.source bufC 255 = .ierr ⟨bufC, 255⟩ := by decide
theorem test_witness_TickAdTimeoutResult :
    (at_ .awaitingData 250 .low 51 12 3 0 bufA).clocks ≠ Config.Params.source.nBits ∧
    (at_ .awaitingData 250 .low 51 12 3 0 bufA).elapsed.toNat + 1 >
      (at_ .awaitingData 250 .low 51 12 3 0 bufA).params.timeoutTicks ∧
    (at_ .awaitingData 250 .low 51 12 3 0 bufA).acq = .awaitingData := by decide
theorem test_witness_TickAdWaitResult :
    (sched .awaitingData 249 .low).params.wf = true ∧ (sched .awaitingData 249 .low).acq = .awaitingData ∧
    (sched .awaitingData 249 .low).clocks ≠ Config.Params.source.nBits ∧
    (sched .awaitingData 249 .low).elapsed.toNat + 1 ≤ (sched .awaitingData 249 .low).params.timeoutTicks := by decide
theorem test_witness_ConditionsSelectOperations :
    ((sched .awaitingWindow 8 .high).acq = .awaitingWindow ∧
      (sched .awaitingWindow 9 .high).elapsed.toNat + 1 ≥ (sched .awaitingWindow 9 .high).params.idleTicks ∧
      (sched .awaitingWindow 8 .high).elapsed.toNat + 1 < (sched .awaitingWindow 8 .high).params.idleTicks) ∧
    ((sched .awaitingData 250 .low).acq = .awaitingData ∧
      (sched .awaitingData 250 .low).clocks ≠ (sched .awaitingData 250 .low).params.nBits ∧
      (sched .awaitingData 250 .low).elapsed.toNat + 1 > (sched .awaitingData 250 .low).params.timeoutTicks ∧
      (sched .awaitingData 249 .low).elapsed.toNat + 1 ≤ (sched .awaitingData 249 .low).params.timeoutTicks) ∧
    (atCompletion.acq = .awaitingData ∧ atCompletion.clocks = atCompletion.params.nBits ∧
      atCompletion.params.strictDigits = false ∧
      readSlot atCompletion.buf atCompletion.params.layout.idxDp = atCompletion.params.layout.dpLiteral ∧
      readSlot bufC atCompletion.params.layout.idxDp ≠ atCompletion.params.layout.dpLiteral) ∧
    (strict.wf = true ∧ strict.strictDigits = true ∧ atCompletion.clocks = strict.nBits ∧
      readSlot bufA strict.layout.idxDp = strict.layout.dpLiteral ∧
      (∀ i, strict.layout.idxDigFirst ≤ i → i ≤ strict.layout.idxDigLast → (readSlot bufA i).toNat ≤ 9) ∧
      9 < (readSlot [0, 0, 0, 0, 0, 1, 2, 12, 4, 5, 6, 2, 0] 7).toNat) := by decide
theorem test_witness_OnlySelectedOperationsAnswer :
    eventOf .tickAwHold = some .tick ∧ eventOf (.clkOverrun .high) = some (.clkFall .high) ∧
    operationOf (conditionsOf State.reset) .tick State.reset.acq = .tickAwHold ∧
    operationOf (conditionsOf State.reset) .tick State.reset.acq ≠ .tickAwExpire := by decide
theorem test_witness_SchedulerFrame :
    (∃ t, exec .tickAwHold State.reset = .next t) ∧ (∃ t, exec .tickAwExpire (sched .awaitingWindow 9 .high) = .next t) ∧
    (∃ t, exec .tickRs (sched .requestSent 0 .high) = .next t) ∧ (∃ t, exec .tickAdDoneOk atCompletion = .next t) ∧
    (∃ t, exec .tickAdDoneErr (full .awaitingData 0 .low 0 bufC) = .next t) ∧
    (∃ t, exec .tickAdTimeout (sched .awaitingData 250 .low) = .next t) ∧
    (∃ t, exec .tickAdWait (sched .awaitingData 0 .low) = .next t) :=
  ⟨⟨_, rfl⟩, ⟨_, rfl⟩, ⟨_, rfl⟩, ⟨_, rfl⟩, ⟨_, rfl⟩, ⟨_, rfl⟩, ⟨_, rfl⟩⟩
theorem test_witness_CompletionBeatsTimeout :
    atCompletion.acq = .awaitingData ∧ atCompletion.clocks = atCompletion.params.nBits ∧
    atCompletion.elapsed.toNat + 1 > atCompletion.params.timeoutTicks := by decide
/-- A reaction of every row of the transition table: the premise of the statements about reactions. -/
theorem test_witness_reactions :
    (∃ t, react .rst atCompletion = .next t) ∧ (∃ t, react .tick (sched .awaitingWindow 8 .high) = .next t) ∧
    (∃ t, react .tick (sched .awaitingWindow 9 .high) = .next t) ∧ (∃ t, react .tick (sched .requestSent 0 .high) = .next t) ∧
    (∃ t, react .tick atCompletion = .next t) ∧ (∃ t, react .tick (sched .awaitingData 250 .low) = .next t) ∧
    (∃ t, react .tick (sched .awaitingData 249 .low) = .next t) ∧ (∃ t, react (.clkFall .high) State.reset = .next t) :=
  ⟨⟨_, rfl⟩, ⟨_, rfl⟩, ⟨_, rfl⟩, ⟨_, rfl⟩, ⟨_, rfl⟩, ⟨_, rfl⟩, ⟨_, rfl⟩, ⟨_, rfl⟩⟩
theorem test_witness_EachReportHasItsCause :
    Config.Params.source.wf = true ∧
    passes (react .tick (sched .awaitingData 250 .low)) (fun t => decide (t.rpt = some .nodata)) = true ∧
    passes (react .tick (full .awaitingData 0 .low 3 bufC)) (fun t => decide (t.rpt = some (.ierr ⟨bufC, 3⟩))) = true ∧
    passes (react .tick (full .awaitingData 0 .low 3 bufB)) (fun t => decide (t.rpt = some (.meas measB))) = true := by decide
theorem test_witness_RequestLineMoves :
    passes (react .tick (sched .requestSent 0 .high)) (fun t => decide (t.req = .low)) = true ∧
    passes (react .tick (sched .awaitingWindow 0 .low)) (fun t => decide (t.req = .high)) = true ∧
    passes (react .tick atCompletion) (fun t => decide (t.req = .high)) = true ∧
    passes (react .rst (sched .awaitingData 0 .low)) (fun t => decide (t.req = .high)) = true := by decide
theorem test_witness_ReportsMatchRequestsOverTraces :
    (∀ e ∈ [Event.tick, .clkFall .high], e ≠ .rst) ∧ (∃ t, reactAll [.tick, .clkFall .high] (sched .requestSent 0 .high) = .next t) ∧
    requestsIn [.tick, .clkFall .high] (sched .requestSent 0 .high) = 1 := ⟨by decide, ⟨_, rfl⟩, by decide⟩
theorem test_witness_IdleWindowLastsIdleTicks :
    State.reset.params.wf = true ∧ State.reset.acq = .awaitingWindow ∧ State.reset.elapsed = 0 ∧
    9 < State.reset.params.idleTicks := by decide
theorem test_witness_SilentCaliperTimesOut :
    (sched .awaitingData 0 .low).params.wf = true ∧ (sched .awaitingData 0 .low).acq = .awaitingData ∧
    (sched .awaitingData 0 .low).elapsed = 0 ∧ (sched .awaitingData 0 .low).clocks ≠ Config.Params.source.nBits ∧
    250 ≤ (sched .awaitingData 0 .low).params.timeoutTicks := by decide

/-- The invariants hold in AwaitingData on the last tick before the timeout. -/
theorem test_witness_invariants_awaitingData : BlockInvariant (sched .awaitingData 250 .low) :=
  ⟨by decide, by decide, by decide, by decide, by decide, by decide, by decide, by decide⟩
/-- The invariants hold with a complete frame and a saturated overrun count. -/
theorem test_witness_invariants_complete : BlockInvariant (full .awaitingData 17 .low 255 bufC) :=
  ⟨by decide, by decide, by decide, by decide, by decide, by decide, by decide, by decide⟩
/-- The invariants hold in the other instance, part way through a frame. -/
theorem test_witness_invariants_narrow :
    BlockInvariant { at_ .awaitingData 3 .low 3 1 1 0 ((clearedBuffer 9).set 0 3) with params := narrow } :=
  ⟨by decide, by decide, by decide, by decide, by decide, by decide, by decide, by decide⟩
theorem test_witness_invariants_requestSent : BlockInvariant (sched .requestSent 0 .high) :=
  ⟨by decide, by decide, by decide, by decide, by decide, by decide, by decide, by decide⟩
theorem test_witness_EveryRequestIsReportedInTime :
    BlockInvariant (sched .awaitingData 250 .low) ∧ (∀ e ∈ [Event.clkFall .high, .tick], e ≠ .rst) ∧
    (sched .awaitingData 250 .low).params.timeoutTicks + 1 ≤
      (sched .awaitingData 250 .low).elapsed.toNat + [Event.clkFall .high, .tick].count .tick :=
  ⟨test_witness_invariants_awaitingData, by decide, by decide⟩
theorem test_witness_RequestErasesThePreviousCycle :
    (full .requestSent 0 .high 5 bufC).params.nNibbles = (sched .requestSent 0 .high).params.nNibbles ∧
    (full .requestSent 0 .high 5 bufC).acq = .requestSent ∧ (sched .requestSent 0 .high).acq = .requestSent ∧
    (full .requestSent 0 .high 5 bufC).elapsed = (sched .requestSent 0 .high).elapsed := by decide
theorem test_witness_FrameValidResult :
    State.reset.params.layout = Config.Layout.source ∧ State.reset.params.strictDigits = false ∧ fieldsA.u = 0 ∧ { fieldsA with u := 1 }.u ≠ 0 ∧ fieldsA.s = 0 ∧
    { fieldsA with s := 8 }.s = 8 := by decide
theorem test_witness_UndefinedSignIsTheFreeValue :
    State.reset.params.layout = Config.Layout.source ∧ State.reset.params.strictDigits = false ∧
    { fieldsA with s := 1 }.s ≠ 0 ∧ { fieldsA with s := 15 }.s ≠ 8 ∧
    { fieldsA with s := 1 }.s ≠ 8 ∧ { fieldsA with s := 15 }.s ≠ 0 := by decide
theorem test_witness_FrameInvalidResult :
    State.reset.params.layout.idxDp = 11 ∧ State.reset.params.layout.dpLiteral = 2 ∧
    State.reset.params.strictDigits = false ∧
    (0 : Nibble) ≠ 2 ∧ (1 : Nibble) ≠ 2 ∧ (3 : Nibble) ≠ 2 ∧ (15 : Nibble) ≠ 2 := by decide
theorem test_witness_DecodeResultOfAnyFrame :
    (strict.wf = true ∧ strict.strictDigits = true ∧ fieldsA.buffer 2 = bufA ∧
      readSlot bufA strict.layout.idxDp = strict.layout.dpLiteral ∧
      ∀ i : Nat, strict.layout.idxDigFirst ≤ i → i ≤ strict.layout.idxDigLast → (readSlot bufA i).toNat ≤ 9) ∧
    (readSlot ({ fieldsA with f := 10 }.buffer 2) strict.layout.idxDp = strict.layout.dpLiteral ∧
      9 < (readSlot ({ fieldsA with f := 10 }.buffer 2) 10).toNat) ∧
    (readSlot bufC strict.layout.idxDp ≠ strict.layout.dpLiteral ∧
      readSlot bufN narrow.layout.idxDp = narrow.layout.dpLiteral ∧
      readSlot bufA narrow.layout.idxDp ≠ narrow.layout.dpLiteral) := by decide
theorem test_witness_DecoderFrame :
    eventOf (.decode fieldsA 2) = none ∧ ∃ t, exec (.decode fieldsA 2) State.reset = .next t := ⟨by decide, ⟨_, rfl⟩⟩
theorem test_witness_MeasurementIgnoresHeaderAndCount :
    (Config.Params.source.wf = true ∧ Config.Params.source.layout = Config.Layout.source ∧
      ∀ i : Nat, 4 ≤ i → readSlot (0 :: 0 :: 0 :: 0 :: bufA.drop 4) i = readSlot (15 :: 15 :: 15 :: 15 :: bufA.drop 4) i) ∧
    (wide.wf = true ∧
      ∀ i : Nat, (i = wide.layout.idxSign ∨ i = wide.layout.idxDp ∨ i = wide.layout.idxUnit ∨
          (wide.layout.idxDigFirst ≤ i ∧ i ≤ wide.layout.idxDigLast)) →
        readSlot (bufA ++ [0, 0, 0, 0, 0, 0, 0]) i = readSlot (bufA ++ [1, 2, 3, 4, 5, 6, 7]) i) := by
  refine ⟨⟨by decide, rfl, fun i hi => ?_⟩, by decide, ?_⟩
  · obtain ⟨j, rfl⟩ := Nat.exists_eq_add_of_le' hi
    rfl
  · rintro i (rfl | rfl | rfl | h)
    · rfl
    · rfl
    · rfl
    · have h2 : ∀ j, wide.layout.idxDigFirst ≤ j → j ≤ wide.layout.idxDigLast →
          readSlot (bufA ++ [0, 0, 0, 0, 0, 0, 0]) j = readSlot (bufA ++ [1, 2, 3, 4, 5, 6, 7]) j := by decide
      exact h2 i h.1 h.2
theorem test_witness_ValidFrameSelector :
    Config.Params.source.layout.idxDp = 11 ∧ Config.Params.source.layout.dpLiteral = 2 ∧
    Config.Params.source.strictDigits = false ∧ (decodeFrame Config.Params.source bufA 0).isMeas = true ∧
    (decodeFrame Config.Params.source bufC 0).isMeas = false := by decide
theorem test_witness_RepeatedOperations :
    (∃ t, exec .tickRs (full .requestSent 0 .high 5 bufC) = .next t) ∧ ∃ t, exec (.clkSample .low) atLastBit = .next t :=
  ⟨⟨_, rfl⟩, ⟨_, rfl⟩⟩
theorem test_witness_DecimalReadingDeterminesDigits :
    (∀ n ∈ measA.digits.toList, n.toNat ≤ 9) ∧ (∀ n ∈ (#v[9, 9, 9, 9, 9, 9] : Vector Nibble 6).toList, n.toNat ≤ 9) := by
  decide
theorem test_witness_StepKeepsInvariants :
    BlockInvariant (full .awaitingData 17 .low 255 bufC) ∧ ∃ t, step (full .awaitingData 17 .low 255 bufC) = .next t :=
  ⟨test_witness_invariants_complete, ⟨_, rfl⟩⟩
theorem test_witness_EventsNeverStopTheMachine :
    ∀ v rest, (withArrivals [.together (.clkFall .high) .tick] State.reset).stimulus ≠ .decoderCall v :: rest := by
  intro v rest h; cases h
theorem test_witness_CoincidentEventsTakeOneOfTwoOrders :
    (withArrivals [.together (.clkFall .low) .tick] atLastBit).stimulus = .together (.clkFall .low) .tick :: [] ∧
    coincidenceWellFormed (.clkFall .low) .tick = true := by decide
theorem test_witness_RunIsTheSequenceOfReactions :
    (withArrivals [.event .tick, .event .rst, .decoderCall 0] State.reset).stimulus =
      [Event.tick, .rst].map Arrival.event ++ [.decoderCall 0] := by decide
theorem test_witness_ParametersAndReportsStand :
    (∃ t, step (withArrivals [.event .tick] atCompletion) = .next t) ∧
    (∃ t, step (withArrivals [.decoderCall 0x0265432100000, .event .rst] atCompletion) = .next t) ∧
    (∃ t, step (withArrivals [] atCompletion) = .next t) ∧
    passes (step (withArrivals [.together .tick .tick] State.reset))
      (fun t => decide (t.stimulus.length = 1)) = true := by
  refine ⟨⟨_, rfl⟩, ⟨_, rfl⟩, ⟨_, rfl⟩, ?_⟩
  rcases orderOfPair_cases State.reset.draws .tick .tick with h | h <;>
    rw [step_together rfl] <;> simp only [withArrivals] <;> rw [h] <;> decide
theorem test_witness_RequestCycleDeliversTheFrame :
    (withArrivals ((.tick :: (frameEvents Config.Params.source bufA ++ [.tick])).map Arrival.event)
      (sched .requestSent 0 .high)).acq = .requestSent ∧
    Config.Params.source.wf = true ∧ FitsGeometry Config.Params.source bufA ∧ FitsGeometry narrow bufN := by decide

/-- A caliper that answers with exactly the levels it owes conforms. -/
theorem conforming_answer (ls : List Level) (s : State) : ConformingCaliper ls (ls.map Event.clkFall) s := by
  induction ls generalizing s with
  | nil => rfl
  | cons d ls ih => exact ⟨ls, rfl, fun t _ => ih t⟩

/-- Edges alone are punctual. -/
theorem punctual_edges (ls : List Level) (s : State) : Punctual (ls.map Event.clkFall) s := by
  induction ls generalizing s with
  | nil => trivial
  | cons d ls ih => exact ⟨fun h => (by cases h), fun t _ => ih t⟩

/-- A caliper that answers a request with frame A, whole. -/
theorem test_witness_ConformingCaliperAlwaysMeasures :
    BlockInvariant (sched .requestSent 0 .high) ∧ ConformingFrame Config.Params.source bufA ∧
    ConformingCaliper [] ((.tick :: frameEvents Config.Params.source bufA) ++ []) (sched .requestSent 0 .high) ∧
    Punctual (.tick :: frameEvents Config.Params.source bufA) (sched .requestSent 0 .high) ∧
    (sched .requestSent 0 .high).overrunCount = 0 ∧ (sched .requestSent 0 .high).acq ≠ .awaitingData := by
  refine ⟨test_witness_invariants_requestSent, by decide, ?_, ?_, by decide, by decide⟩
  · rw [List.append_nil]
    exact ⟨rfl, bufA, by decide, fun t _ => conforming_answer _ t⟩
  · exact ⟨fun _ h => (by cases h), fun t _ => punctual_edges _ t⟩

/-- A caliper that answers with one edge too few, or not at all, before the next request does not conform (R195 (b)). -/
theorem test_short_answer_does_not_conform (d : Level) (ls : List Level) (s : State) :
    ¬ ConformingCaliper (d :: ls) [] s ∧ (s.acq = .requestSent → ¬ ConformingCaliper (d :: ls) [.tick] s) := by
  refine ⟨fun h => (by cases h), fun ha h => ?_⟩
  simp only [ConformingCaliper, ha, if_true] at h
  exact absurd h.1 (by simp)

end Sys2Proof.Tests
end

section
/-! PROOF. Which operations may be repeated without effect (20_memory.md R63). -/

namespace Sys2Proof.Machine

/-- `DECODE` reads nothing that it writes, so a second call shows the same result. -/
theorem callDecoder_callDecoder (b : FrameBuffer) (s : State) :
    callDecoder b (callDecoder b s) = callDecoder b s := rfl

theorem sameBlock_callDecoder (b : FrameBuffer) (s : State) : sameBlock s (callDecoder b s) :=
  ⟨⟨rfl, rfl, rfl, rfl, rfl⟩, rfl, rfl, rfl⟩

theorem exec_decode (x : FrameFields) (p : Nibble) (s : State) :
    exec (.decode x p) s = .next (callDecoder (x.buffer p) s) := rfl

/-- `TICK.RS`, put back in RequestSent, answers again and clears a buffer of the same size. -/
theorem exec_tickRs_again {s t : State} (h : exec .tickRs s = .next t) :
    ∃ u, exec .tickRs { t with acq := .requestSent } = .next u ∧ u.buf = t.buf := by
  obtain ⟨-, rfl⟩ := exec_tickRs_next.1 h
  exact ⟨_, exec_tickRs_next.2 ⟨rfl, rfl⟩, rfl⟩

/-- The Sampler's pointer moves for every slot width: at the last bit of a slot `byte_pos` advances (with slots of one bit
only that), elsewhere `bit_pos` does. -/
theorem nextPointer_ne (w : Nat) (k : BitPos) (p : Nat) : (nextBytePos w k p, nextBitPos w k) ≠ (p, k) := by
  by_cases hk : k.val + 1 = w
  · have hbyte : nextBytePos w k p ≠ p := by rw [nextBytePos, if_pos hk]; exact Nat.succ_ne_self p
    exact fun h => hbyte (congrArg Prod.fst h)
  · have hsucc : ∀ j : BitPos, j + 1 ≠ j := by decide
    have hbit : nextBitPos w k ≠ k := by rw [nextBitPos, if_neg hk]; exact hsucc k
    exact fun h => hbit (congrArg Prod.snd h)

theorem exec_clkSample_advances {d : Level} {s t : State} (h : exec (.clkSample d) s = .next t) :
    t.clocks ≠ s.clocks ∧ (t.bytePos, t.bitPos) ≠ (s.bytePos, s.bitPos) := by
  obtain ⟨-, i, -, rfl⟩ := exec_clkSample_next.1 h
  exact ⟨Nat.succ_ne_self _, nextPointer_ne _ _ _⟩

/-- Settles O51: the three parts of R63, one lemma each. -/
theorem repeatedOperations : Obligations.RepeatedOperations := by
  unfold Obligations.RepeatedOperations
  refine ⟨fun x p s => ?_, fun _ _ => exec_tickRs_again, fun _ _ _ => exec_clkSample_advances⟩
  refine ⟨callDecoder (x.buffer p) s, exec_decode x p s, ?_, sameBlock_callDecoder _ s⟩
  rw [exec_decode, callDecoder_callDecoder]

end Sys2Proof.Machine
end

section
/-! PROOF. The integrity gate over the frame rows: what `FRAME.INVALID` and `FRAME.VALID` show (30_encoding.md R77, R78;
42_decoder.md R151, R157). -/

namespace Sys2Proof.Machine

theorem exec_frameValid (x : FrameFields) (s : State) :
    exec (.frameValid x) s = .next (callDecoder (x.buffer Config.dpLiteralSource) s) := rfl

theorem exec_frameInvalid (x : FrameFields) (p : Nibble) (s : State) :
    exec (.frameInvalid x p) s = .next (callDecoder (x.buffer p) s) := rfl

/-- The decimal-point nibble of a frame stands in slot 11 (R71). -/
@[simp] theorem readSlot_buffer_dp (x : FrameFields) (p : Nibble) : readSlot (x.buffer p) 11 = p := rfl

/-- The gate (R151): a frame that fails it is a Decode Error with its slots and the count, whatever the strict option. -/
theorem decodeFrame_of_dp_ne {p : Config.Params} {b : FrameBuffer}
    (h : readSlot b p.layout.idxDp ≠ p.layout.dpLiteral) (o : Nat) : decodeFrame p b o = .ierr ⟨b, o⟩ := by
  obtain ⟨herr, -⟩ | ⟨-, hdp, -⟩ := decodeFrame_cases p b o
  · exact herr
  · exact absurd hdp h

/-- With the strict option off the gate is the only check (R157). -/
theorem exists_decodeFrame_eq_meas {p : Config.Params} {b : FrameBuffer}
    (hdp : readSlot b p.layout.idxDp = p.layout.dpLiteral) (hstrict : p.strictDigits = false) (o : Nat) :
    ∃ m, decodeFrame p b o = .meas m := by
  obtain ⟨-, hfail | ⟨hon, -⟩⟩ | ⟨hmeas, -⟩ := decodeFrame_cases p b o
  · exact absurd hdp hfail
  · exact absurd hon (by simp [hstrict])
  · exact ⟨_, hmeas⟩

/-- Settles O46: the gate reads slot 11, where `FRAME.INVALID` holds its nibble and `FRAME.VALID` the literal. -/
theorem frameInvalidResult : Obligations.FrameInvalidResult := by
  unfold Obligations.FrameInvalidResult
  refine ⟨fun x p s hidx hlit hp => ?_, fun x s hidx hlit hstrict => ?_⟩
  · have hgate : readSlot (x.buffer p) s.params.layout.idxDp ≠ s.params.layout.dpLiteral := by
      rwa [hidx, hlit, readSlot_buffer_dp]
    rw [exec_frameInvalid, callDecoder, decodeFrame_of_dp_ne hgate]
    rfl
  · have hgate : readSlot (x.buffer Config.dpLiteralSource) s.params.layout.idxDp = s.params.layout.dpLiteral := by
      rw [hidx, hlit, readSlot_buffer_dp, Config.dpLiteralSource]
    obtain ⟨m, hm⟩ := exists_decodeFrame_eq_meas hgate hstrict s.overrunCount
    exact ⟨_, m, exec_frameValid x s, congrArg some hm⟩

end Sys2Proof.Machine
end

section
/-! PROOF. What a sample stores and where it leaves the pointer (40_sampler.md R101). -/

namespace Sys2Proof.Machine

/-- Storing a bit writes no slot but the addressed one. -/
theorem addBit_eq_set (w : Nat) {b : FrameBuffer} {i : Nat} (k : BitPos) (h : i < b.length) :
    addBit w b i k = b.set i (readSlot (addBit w b i k) i) := by
  rw [addBit_same w k h]
  rfl

/-- The bit stored in a slot of the buffer is added to what the slot held. -/
theorem addBit_same_toNat {w : Nat} (h4 : w ≤ 4) {b : FrameBuffer} {i : Nat} (k : BitPos) (h : i < b.length) :
    (readSlot (addBit w b i k) i).toNat = ((readSlot b i).toNat + 2 ^ k.val) % 2 ^ w := by
  rw [addBit_same w k h, addToSlot_toNat h4]

/-- Where R33 and R35 hold, the bit stored at the pointer is ORed into the slot (R101, corner case (b)). -/
theorem addBit_pointer_eq_or {s : State} (hw : s.params.wf = true) (hc : s.clocks ≠ s.params.nBits)
    (hfit : FitsGeometry s.params s.buf) (hzero : UnwrittenBitsZero s) (hptr : PointerAgrees s) :
    readSlot (addBit s.params.nibbleW s.buf s.bytePos s.bitPos) s.bytePos =
      readSlot s.buf s.bytePos ||| ((1 : Nibble) <<< s.bitPos.val) := by
  obtain ⟨h1, h4, -⟩ := params_geometry hw
  have hslot : s.bytePos < s.buf.length := hfit.1 ▸ bytePos_lt hw hptr hc
  rw [addBit_same _ _ hslot]
  exact addToSlot_eq_or h1 h4 _ _ hptr.2.2 (readSlot_lt hfit _) (addressed_bit_clear hzero hptr hc)

/-- At the last bit of a slot the pointer goes to the first bit of the next one. -/
theorem nextPointer_last {w : Nat} {k : BitPos} (p : Nat) (h : k.val + 1 = w) :
    (nextBitPos w k).val = 0 ∧ nextBytePos w k p = p + 1 := by
  rw [nextBitPos, nextBytePos, if_pos h, if_pos h]
  exact ⟨rfl, rfl⟩

/-- Elsewhere in a slot the pointer goes to the next bit of the same one. -/
theorem nextPointer_within {w : Nat} (h4 : w ≤ 4) {k : BitPos} (p : Nat) (hk : k.val < w) (h : k.val + 1 ≠ w) :
    (nextBitPos w k).val = k.val + 1 ∧ nextBytePos w k p = p := by
  rw [nextBitPos_val h4 k hk, nextBytePos, if_neg h, if_neg h]
  exact ⟨rfl, rfl⟩

/-- The position after the last bit of the frame is bit 0 of slot `N_NIBBLES`. -/
theorem pointer_at_nBits {p : Config.Params} (hw : p.wf = true) {i q : Nat} (hq : q < p.nibbleW)
    (h : p.nBits = p.nibbleW * i + q) : q = 0 ∧ i = p.nNibbles := by
  obtain ⟨h1, -, -, hbits⟩ := params_geometry hw
  obtain ⟨hslot, hbit⟩ := (position_iff hq).1 h
  obtain ⟨hslot', hbit'⟩ := (position_iff (q := 0) h1).1 hbits
  exact ⟨hbit.symm.trans hbit', hslot.symm.trans hslot'⟩

/-- Settles O15: the next state of a sample, its stored bit and its pointer each by the lemma that says what it is. -/
theorem clkSampleResult : Obligations.ClkSampleResult := by
  unfold Obligations.ClkSampleResult
  intro d s hw hlen hc hbyte hbit
  obtain ⟨-, h4, -⟩ := params_geometry hw
  have hslot : s.bytePos < s.buf.length := hlen ▸ hbyte
  refine ⟨_, exec_clkSample_next.2 ⟨hc, _, slotIndex?_eq_some.2 ⟨rfl, hbyte⟩, rfl⟩, rfl, ?stored, ?low,
    nextPointer_last _, nextPointer_within h4 _ hbit, rfl, ⟨rfl, rfl, rfl⟩, ⟨rfl, rfl⟩, ⟨rfl, rfl, rfl⟩, rfl, rfl,
    ?complete, ?or⟩
  case stored =>
    rintro rfl
    exact ⟨addBit_eq_set _ _ hslot, addBit_same_toNat h4 _ hslot⟩
  case low =>
    rintro rfl
    rfl
  case complete =>
    intro hlast hptr
    obtain ⟨hcount, hq⟩ := pointer_succ h4 s.bitPos hbit hptr.1
    exact ⟨hlast, pointer_at_nBits hw hq (hlast.symm.trans hcount)⟩
  case or =>
    rintro rfl
    exact addBit_pointer_eq_or hw hc

end Sys2Proof.Machine
end

section
/-! PROOF. A complete frame against the timeout, and what one event reports (41_scheduler.md R128, R133). -/

namespace Sys2Proof.Machine

/-- A reaction hands over exactly what it shows on `RPT`, with the index of its tick (R41, R85). -/
theorem react_sink {e : Event} {s t : State} (h : react e s = .next t) :
    t.sink = s.sink ++ t.rpt.toList.map (t.ticks, ·) := by
  rcases react_cases h with ⟨rfl, h'⟩ | ⟨d, rfl, h'⟩ | ⟨d, rfl, h'⟩ | ⟨rfl, h'⟩ | ⟨rfl, h'⟩ | ⟨rfl, h'⟩ |
    ⟨rfl, -, -, rfl⟩ | ⟨rfl, h'⟩ | ⟨rfl, h'⟩
  · cases h'; exact (List.append_nil _).symm
  · obtain ⟨-, i, -, rfl⟩ := exec_clkSample_next.1 h'; exact (List.append_nil _).symm
  · obtain ⟨-, rfl⟩ := exec_clkOverrun_next.1 h'; exact (List.append_nil _).symm
  · obtain ⟨-, rfl⟩ := exec_tickAwHold_next.1 h'; exact (List.append_nil _).symm
  · obtain ⟨-, rfl⟩ := exec_tickAwExpire_next.1 h'; exact (List.append_nil _).symm
  · obtain ⟨-, rfl⟩ := exec_tickRs_next.1 h'; exact (List.append_nil _).symm
  · rfl
  · obtain ⟨-, rfl⟩ := exec_tickAdTimeout_next.1 h'; rfl
  · obtain ⟨-, rfl⟩ := exec_tickAdWait_next.1 h'; exact (List.append_nil _).symm

/-- With a complete frame a tick runs one of the two `TICK.AD.DONE` operations, as `DECODE` succeeds or fails (R125). -/
theorem react_done_exec {s : State} (ha : s.acq = .awaitingData) (hc : s.clocks = s.params.nBits) :
    react .tick s = exec .tickAdDoneOk s ∨ react .tick s = exec .tickAdDoneErr s := by
  rw [react_done ha hc]
  cases hd : decodeSucceeds s with
  | true => exact .inl (exec_tickAdDoneOk_next.2 ⟨⟨ha, hc, hd⟩, rfl⟩).symm
  | false => exact .inr (exec_tickAdDoneErr_next.2 ⟨⟨ha, hc, hd⟩, rfl⟩).symm

/-- Settles O34: the row of a complete frame does not look at `elapsed`, and a tick hands over only what `RPT` shows. -/
theorem completionBeatsTimeout : Obligations.CompletionBeatsTimeout := by
  unfold Obligations.CompletionBeatsTimeout
  refine ⟨fun s ha hc _ => ⟨react_done_exec ha hc, completeFrame s, _, react_done ha hc, rfl, rfl, rfl, rfl, rfl,
    toReport_ne_nodata _, rfl⟩, fun s t h => ⟨_, react_sink h, ?_⟩⟩
  rw [List.length_map]
  exact Option.length_toList_le

end Sys2Proof.Machine
end

section
/-! PROOF. The Measurement Result of a valid frame (42_decoder.md R152 to R156). -/

namespace Sys2Proof.Machine

/-- Past the gate, with the strict option off, `DECODE` assembles the four operands (R152 to R156). -/
theorem decodeFrame_of_dp_eq {p : Config.Params} {b : FrameBuffer}
    (hdp : readSlot b p.layout.idxDp = p.layout.dpLiteral) (hstrict : p.strictDigits = false) (o : Nat) :
    decodeFrame p b o =
      .meas ⟨signOf p.layout (readSlot b p.layout.idxSign), digitsOf p.layout b, p.layout.dpLiteral.setWidth 3,
        unitOf (readSlot b p.layout.idxUnit)⟩ := by
  obtain ⟨-, hfail | ⟨hon, -⟩⟩ | ⟨hmeas, -⟩ := decodeFrame_cases p b o
  · exact absurd hdp hfail
  · exact absurd hon (by simp [hstrict])
  · exact hmeas

/-- The digits of a frame stand in slots 5 to 10, in the order of its fields (R71, R153). -/
theorem digitsOf_source_buffer (x : FrameFields) (p : Nibble) :
    digitsOf Config.Layout.source (x.buffer p) = #v[x.a, x.b, x.c, x.d, x.e, x.f] := rfl

/-- In the nominal configuration a frame with the decimal-point nibble 2 is measured from its own fields. -/
theorem decodeFrame_source_buffer {p : Config.Params} (hlayout : p.layout = Config.Layout.source)
    (hstrict : p.strictDigits = false) (x : FrameFields) (o : Nat) :
    decodeFrame p (x.buffer Config.dpLiteralSource) o =
      .meas ⟨signOf Config.Layout.source x.s, #v[x.a, x.b, x.c, x.d, x.e, x.f], 2, unitOf x.u⟩ := by
  have hgate : readSlot (x.buffer Config.dpLiteralSource) p.layout.idxDp = p.layout.dpLiteral := by
    rw [hlayout]; exact readSlot_buffer_dp x _
  rw [decodeFrame_of_dp_eq hgate hstrict, hlayout, digitsOf_source_buffer]
  rfl

theorem signOf_zero (l : Config.Layout) : signOf l 0 = .positive := if_pos rfl

/-- The source's `SIGN_NEG` (R72). -/
theorem signOf_source_eight : signOf Config.Layout.source 8 = .negative := rfl

theorem unitOf_zero : unitOf 0 = .metric := rfl

/-- Every nonzero unit nibble alike is imperial (R155). -/
theorem unitOf_of_ne_zero {n : Nibble} (h : n ≠ 0) : unitOf n = .imperial := if_neg h

/-- Settles O44: `FRAME.VALID` shows the result that `DECODE` assembles from the frame's fields, and nothing else. -/
theorem frameValidResult : Obligations.FrameValidResult := by
  unfold Obligations.FrameValidResult
  intro x s hlayout hstrict
  refine ⟨_, _, exec_frameValid x s, congrArg some (decodeFrame_source_buffer hlayout hstrict x s.overrunCount),
    rfl, rfl, ?metric, unitOf_of_ne_zero, ?positive, ?negative, sameBlock_callDecoder _ s, rfl, rfl⟩
  case metric => intro hu; rw [hu, unitOf_zero]
  case positive => intro hs; rw [hs, signOf_zero]
  case negative => intro hs; rw [hs, signOf_source_eight]

end Sys2Proof.Machine
end

section
/-! PROOF. What one event does, as one relation with a constructor for each row of the operation map (30_encoding.md
R83): later proofs about reactions are case splits over it. -/

namespace Sys2Proof.Machine

/-- The reactions to an event, row by row; the two `TICK.AD.DONE` rows do the same and are one here (R125). -/
inductive Reaction (s : State) : Event → State → Prop
  /-- `RST` -/
  | reset :
    Reaction s .rst
      { clearAcquisition s with
        acq := .awaitingWindow, elapsed := 0, req := .high, rpt := none, decoderOut := none, ticks := 0 }
  /-- `CLK.SAMPLE` -/
  | sample (d : Level) (hc : s.clocks ≠ s.params.nBits) (hb : s.bytePos < s.params.nNibbles) :
    Reaction s (.clkFall d)
      { quiet s with
        clocks := s.clocks + 1
        buf := if d = .high then addBit s.params.nibbleW s.buf s.bytePos s.bitPos else s.buf
        bitPos := nextBitPos s.params.nibbleW s.bitPos
        bytePos := nextBytePos s.params.nibbleW s.bitPos s.bytePos }
  /-- `CLK.OVERRUN` -/
  | overrun (d : Level) (hc : s.clocks = s.params.nBits) :
    Reaction s (.clkFall d) { quiet s with overrunCount := satInc s.params.ovrW s.overrunCount }
  /-- `TICK.AW.HOLD` -/
  | hold (ha : s.acq = .awaitingWindow) (he : s.elapsed.toNat + 1 < s.params.idleTicks) :
    Reaction s .tick { beginTick s with req := .high, elapsed := s.elapsed + 1 }
  /-- `TICK.AW.EXPIRE` -/
  | expire (ha : s.acq = .awaitingWindow) (he : s.params.idleTicks ≤ s.elapsed.toNat + 1) :
    Reaction s .tick { beginTick s with req := .high, elapsed := 0, acq := .requestSent }
  /-- `TICK.RS` -/
  | request (ha : s.acq = .requestSent) :
    Reaction s .tick { clearAcquisition (beginTick s) with req := .low, acq := .awaitingData }
  /-- `TICK.AD.DONE.OK` and `TICK.AD.DONE.ERR` -/
  | done (ha : s.acq = .awaitingData) (hc : s.clocks = s.params.nBits) : Reaction s .tick (completeFrame s)
  /-- `TICK.AD.TIMEOUT` -/
  | timeout (ha : s.acq = .awaitingData) (hc : s.clocks ≠ s.params.nBits)
    (he : s.params.timeoutTicks < s.elapsed.toNat + 1) : Reaction s .tick (endCycle .nodata (beginTick s))
  /-- `TICK.AD.WAIT` -/
  | wait (ha : s.acq = .awaitingData) (hc : s.clocks ≠ s.params.nBits)
    (he : s.elapsed.toNat + 1 ≤ s.params.timeoutTicks) :
    Reaction s .tick { beginTick s with elapsed := s.elapsed + 1 }

/-- An edge runs `CLK.OVERRUN` once the frame is complete (R100). -/
theorem react_clkFall_complete {s : State} (d : Level) (hc : s.clocks = s.params.nBits) :
    react (.clkFall d) s = exec (.clkOverrun d) s := by
  simp only [react, operationOf, conditionsOf_frameComplete, (frameComplete_iff s).2 hc, if_true]

/-- An edge runs `CLK.SAMPLE` until then (R100). -/
theorem react_clkFall_incomplete {s : State} (d : Level) (hc : s.clocks ≠ s.params.nBits) :
    react (.clkFall d) s = exec (.clkSample d) s := by
  simp [react, operationOf, (not_frameComplete_iff s).2 hc]

/-- Every answer to an event is a row of the relation. -/
theorem reaction_of_react {e : Event} {s t : State} (h : react e s = .next t) : Reaction s e t := by
  rcases react_cases h with ⟨rfl, h'⟩ | ⟨d, rfl, h'⟩ | ⟨d, rfl, h'⟩ | ⟨rfl, h'⟩ | ⟨rfl, h'⟩ | ⟨rfl, h'⟩ |
    ⟨rfl, ha, hc, rfl⟩ | ⟨rfl, h'⟩ | ⟨rfl, h'⟩
  · cases h'; exact .reset
  · obtain ⟨hc, i, hi, rfl⟩ := exec_clkSample_next.1 h'
    obtain ⟨rfl, hb⟩ := slotIndex?_eq_some.1 hi
    exact .sample d hc hb
  · obtain ⟨hc, rfl⟩ := exec_clkOverrun_next.1 h'; exact .overrun d hc
  · obtain ⟨⟨ha, he⟩, rfl⟩ := exec_tickAwHold_next.1 h'; exact .hold ha he
  · obtain ⟨⟨ha, he⟩, rfl⟩ := exec_tickAwExpire_next.1 h'; exact .expire ha he
  · obtain ⟨ha, rfl⟩ := exec_tickRs_next.1 h'; exact .request ha
  · exact .done ha hc
  · obtain ⟨⟨ha, hc, he⟩, rfl⟩ := exec_tickAdTimeout_next.1 h'; exact .timeout ha hc he
  · obtain ⟨⟨ha, hc, he⟩, rfl⟩ := exec_tickAdWait_next.1 h'; exact .wait ha hc he

/-- The relation and the function `react` say the same. -/
theorem reaction_iff {e : Event} {s t : State} : Reaction s e t ↔ react e s = .next t := by
  refine ⟨fun h => ?_, reaction_of_react⟩
  cases h with
  | reset => rfl
  | sample d hc hb =>
    exact (react_clkFall_incomplete d hc).trans
      (exec_clkSample_next.2 ⟨hc, _, slotIndex?_eq_some.2 ⟨rfl, hb⟩, rfl⟩)
  | overrun d hc => exact (react_clkFall_complete d hc).trans (exec_clkOverrun_next.2 ⟨hc, rfl⟩)
  | hold ha he => exact react_hold ha he
  | expire ha he => exact react_expire ha he
  | request ha => exact react_request ha
  | done ha hc => exact react_done ha hc
  | timeout ha hc he => exact react_timeout ha hc he
  | wait ha hc he => exact react_wait ha hc he

/-- No reaction writes a parameter (R193). -/
theorem react_params {e : Event} {s t : State} (h : react e s = .next t) : t.params = s.params :=
  (react_surroundings h).1

/-- An edge is the Sampler's own: it reports nothing, counts no tick and moves no Scheduler item (R103, R190). -/
theorem react_clkFall_frame {d : Level} {s t : State} (h : react (.clkFall d) s = .next t) :
    sameScheduler s t ∧ nothingReported s t ∧ t.ticks = s.ticks := by
  cases reaction_of_react h with
  | sample | overrun => exact ⟨⟨rfl, rfl, rfl⟩, ⟨rfl, rfl⟩, rfl⟩

/-- A tick outside RequestSent is the Scheduler's own: it moves no Sampler item (R190). -/
theorem react_tick_sameSampler {s t : State} (h : react .tick s = .next t) (ha : s.acq ≠ .requestSent) :
    sameSampler s t := by
  cases reaction_of_react h with
  | request ha' => exact absurd ha' ha
  | hold | expire | done | timeout | wait => exact ⟨rfl, rfl, rfl, rfl, rfl⟩

end Sys2Proof.Machine
end

section
/-! PROOF. The packing law: the Sampler's registers say which levels were received since they were last cleared
(40_sampler.md R101, R102, R104). -/

namespace Sys2Proof.Machine

/-- What the registers say does not depend on any other item. -/
theorem Packed.congr {ds : List Level} {s t : State} (h : Packed ds s) (hp : t.params = s.params)
    (hs : sameSampler s t) : Packed ds t := by
  obtain ⟨hbuf, hclocks, hbit, hbyte, hovr⟩ := hs
  obtain ⟨h1, h2, h3, h4, h5, h6⟩ := h
  constructor
  · rw [hclocks, hp]; exact h1
  · rw [hbyte, hclocks, hp]; exact h2
  · rw [hbit, hclocks, hp]; exact h3
  · rw [hbuf, hp]; exact h4
  · rw [hbuf, hp]; exact h5
  · rw [hovr, hp]; exact h6

/-- Where the registers describe some levels, pointer and count agree (R35). -/
theorem Packed.pointerAgrees {ds : List Level} {s : State} (hw : s.params.wf = true) (h : Packed ds s) :
    PointerAgrees s := by
  obtain ⟨hW, -⟩ := params_geometry hw
  refine ⟨?_, ?_, ?_⟩
  · rw [h.bytePos, h.bitPos, Nat.div_add_mod]
  · rw [h.clocks]; exact Nat.min_le_right _ _
  · rw [h.bitPos]; exact Nat.mod_lt _ hW

/-- The bits not yet received are zero (R33). -/
theorem Packed.unwrittenBitsZero {ds : List Level} {s : State} (h : Packed ds s) : UnwrittenBitsZero s := by
  intro k hk hle
  have hlen : ds.length ≤ k := by rw [h.clocks] at hle; omega
  rw [h.bits k hk, List.getD_eq_default _ _ hlen]
  rfl

/-- Before the frame is complete the count is the number of levels. -/
theorem Packed.clocks_of_incomplete {ds : List Level} {s : State} (h : Packed ds s)
    (hc : s.clocks ≠ s.params.nBits) : s.clocks = ds.length ∧ ds.length < s.params.nBits := by
  have := h.clocks
  omega

/-- A cleared Sampler has received nothing. -/
theorem packed_nil_of_cleared {s : State} (hb : s.buf = clearedBuffer s.params.nNibbles) (hc : s.clocks = 0)
    (hk : s.bitPos = 0) (hi : s.bytePos = 0) (ho : s.overrunCount = 0) : Packed [] s := by
  constructor
  · rw [hc]; exact (Nat.zero_min _).symm
  · rw [hi, hc, Nat.zero_div]
  · rw [hk, hc, Nat.zero_mod]; rfl
  · intro k _; rw [hb]; exact frameBit_clearedBuffer _ _ _
  · rw [hb]; exact fitsGeometry_clearedBuffer _
  · rw [ho, List.length_nil, Nat.zero_sub, Nat.zero_min]

/-- The level at a position of a list with one more level. -/
theorem getD_concat_bit (ds : List Level) (d : Level) (k : Nat) :
    ((ds ++ [d]).getD k .low).bit = ((ds.getD k .low).bit || (decide (k = ds.length) && d.bit)) := by
  rcases Nat.lt_trichotomy k ds.length with hk | rfl | hk
  · rw [List.getD_append _ _ _ _ hk]
    simp [Nat.ne_of_lt hk]
  · rw [List.getD_append_right _ _ _ _ (le_refl _), List.getD_eq_default ds _ (le_refl _)]
    simp [Level.bit]
  · rw [List.getD_eq_default _ _ (by rw [List.length_append]; exact hk),
      List.getD_eq_default _ _ (Nat.le_of_lt hk)]
    simp [Nat.ne_of_gt hk, Level.bit]

/-- The bits of the frame after one sample: the level stands at the position `clocks` (R53, R101). -/
theorem frameBit_sampled {s : State} (hw : s.params.wf = true) (hfit : FitsGeometry s.params s.buf)
    (hzero : UnwrittenBitsZero s) (hptr : PointerAgrees s) (hc : s.clocks ≠ s.params.nBits) (d : Level) (k : Nat) :
    frameBit s.params (if d = .high then addBit s.params.nibbleW s.buf s.bytePos s.bitPos else s.buf) k =
      (frameBit s.params s.buf k || (decide (k = s.clocks) && d.bit)) := by
  cases d with
  | low => simp [Level.bit]
  | high =>
    rw [if_pos rfl, hptr.1]
    exact (frameBit_addBit hw hfit (bytePos_lt hw hptr hc) s.bitPos hptr.2.2 (addressed_bit_clear hzero hptr hc)
      k).trans (by rw [Level.bit, Bool.and_true])

/-- `CLK.SAMPLE` receives one more level. -/
theorem packed_sample {ds : List Level} {s t : State} {d : Level} (hw : s.params.wf = true) (h : Packed ds s)
    (hc : s.clocks ≠ s.params.nBits) (ht : react (.clkFall d) s = .next t) : Packed (ds ++ [d]) t := by
  obtain ⟨-, h4, -⟩ := params_geometry hw
  obtain ⟨hclocks, hlt⟩ := h.clocks_of_incomplete hc
  have hptr := h.pointerAgrees hw
  have hlen : (ds ++ [d]).length = ds.length + 1 := List.length_append
  cases reaction_of_react ht with
  | overrun _ hc' => exact absurd hc' hc
  | sample _ _ hb =>
    obtain ⟨hcount, hq⟩ := pointer_succ h4 s.bitPos hptr.2.2 hptr.1
    obtain ⟨hslot, hbit⟩ := (position_iff hq).1 hcount
    constructor
    · change s.clocks + 1 = min _ s.params.nBits
      omega
    · exact hslot.symm
    · exact hbit.symm
    · intro k hk
      refine (frameBit_sampled hw h.fits h.unwrittenBitsZero hptr hc d k).trans ?_
      rw [h.bits k hk, getD_concat_bit, hclocks]
    · change FitsGeometry s.params (if d = .high then _ else _)
      split
      · exact fitsGeometry_addBit hw h.fits _ _
      · exact h.fits
    · change s.overrunCount = min (_ - s.params.nBits) _
      rw [h.overruns, hlen]
      omega

/-- `CLK.OVERRUN` receives one more level, which only its count remembers (R102). -/
theorem packed_overrun {ds : List Level} {s t : State} {d : Level} (h : Packed ds s)
    (hc : s.clocks = s.params.nBits) (ht : react (.clkFall d) s = .next t) : Packed (ds ++ [d]) t := by
  have hlen : (ds ++ [d]).length = ds.length + 1 := List.length_append
  have hle : s.params.nBits ≤ ds.length := by have := h.clocks; omega
  cases reaction_of_react ht with
  | sample _ hc' => exact absurd hc hc'
  | overrun =>
    constructor
    · change s.clocks = min _ s.params.nBits
      omega
    · exact h.bytePos
    · exact h.bitPos
    · intro k hk
      rw [List.getD_append _ _ _ _ (Nat.lt_of_lt_of_le hk hle)]
      exact h.bits k hk
    · exact h.fits
    · change satInc s.params.ovrW s.overrunCount = min (_ - s.params.nBits) (2 ^ s.params.ovrW - 1)
      rw [h.overruns, satInc_min, hlen, Nat.sub_add_comm hle]

/-- Any reaction keeps the refinement. -/
theorem packed_history {ds : List Level} {e : Event} {s t : State} (hw : s.params.wf = true) (h : Packed ds s)
    (ht : react e s = .next t) : Packed (history e s ds) t := by
  cases e with
  | rst =>
    cases reaction_of_react ht with
    | reset => exact packed_nil_of_cleared rfl rfl rfl rfl rfl
  | tick =>
    by_cases ha : s.acq = .requestSent
    · rw [history, if_pos ha]
      obtain rfl := Host.Outcome.next.inj ((react_request ha).symm.trans ht)
      exact packed_nil_of_cleared rfl rfl rfl rfl rfl
    · rw [history, if_neg ha]
      exact h.congr (react_params ht) (react_tick_sameSampler ht ha)
  | clkFall d =>
    by_cases hc : s.clocks = s.params.nBits
    · exact packed_overrun h hc ht
    · exact packed_sample hw h hc ht

/-- Where the registers describe some levels, every event is answered. -/
theorem Packed.react_answers {ds : List Level} {s : State} (hw : s.params.wf = true) (h : Packed ds s) (e : Event) :
    ∃ t, react e s = .next t :=
  Machine.react_answers e s (bytePos_lt hw (h.pointerAgrees hw))

theorem packed_reset : Packed [] State.reset := packed_nil_of_cleared rfl rfl rfl rfl rfl

/-- Settles O21: reset is a cleared Sampler, and each kind of event keeps the refinement by its own lemma. -/
theorem samplerTracksTheLevelsReceived : Obligations.SamplerTracksTheLevelsReceived := by
  unfold Obligations.SamplerTracksTheLevelsReceived
  refine ⟨packed_reset, fun ds e s hw h => ?_⟩
  obtain ⟨t, ht⟩ := h.react_answers hw e
  exact ⟨t, ht, packed_history hw h ht, react_params ht⟩

end Sys2Proof.Machine
end

section
/-! PROOF. The invariants of the block are kept by every step (10_state.md R22, R33 to R36; 41_scheduler.md R131). -/

namespace Sys2Proof.Machine

/-! ### The Sampler's half: some levels were received -/

/-- Levels that a state's Sampler may have received: the bits of its frame so far, then one for each overrun. -/
def receivedLevels (s : State) : List Level :=
  (frameLevels s.params s.buf).take s.clocks ++ List.replicate s.overrunCount .low

@[simp] theorem length_frameLevels (p : Config.Params) (b : FrameBuffer) : (frameLevels p b).length = p.nBits :=
  List.length_ofFn

theorem getD_frameLevels {p : Config.Params} {b : FrameBuffer} {k : Nat} (hk : k < p.nBits) :
    ((frameLevels p b).getD k .low).bit = frameBit p b k := by
  have hbit : ∀ v, (Level.ofBit v).bit = v := by decide
  rw [frameLevels, List.getD_eq_getElem _ _ (by rwa [List.length_ofFn]), List.getElem_ofFn, hbit]

/-- The invariants of the Sampler say that its registers describe some levels. -/
theorem packed_receivedLevels {s : State} (h : BlockInvariant s) : Packed (receivedLevels s) s := by
  obtain ⟨hptr, hle, hbit⟩ := h.pointer
  obtain ⟨hslot, hmod⟩ := (position_iff hbit).1 hptr
  have hfits := h.overrunFits
  have hcomplete : s.overrunCount ≠ 0 → s.clocks = s.params.nBits := fun ho => h.overrun (Nat.pos_of_ne_zero ho)
  have htake : ((frameLevels s.params s.buf).take s.clocks).length = s.clocks := by
    rw [List.length_take, length_frameLevels]; exact Nat.min_eq_left hle
  have hlen : (receivedLevels s).length = s.clocks + s.overrunCount := by
    rw [receivedLevels, List.length_append, htake, List.length_replicate]
  refine ⟨?_, hslot.symm, hmod.symm, fun k hk => ?_, h.fits, ?_⟩
  · omega
  · by_cases hkc : k < s.clocks
    · rw [receivedLevels, List.getD_append _ _ _ _ (by omega), ← getD_frameLevels hk]
      simp [hkc]
    · rw [h.unwritten k hk (by omega), receivedLevels, List.getD_append_right _ _ _ _ (by omega),
        List.getD_eq_getElem?_getD, List.getElem?_getD_replicate_default_eq]
      rfl
  · omega

/-- Registers that describe some levels, with the Scheduler's invariants, are the invariants of the block. -/
theorem Packed.blockInvariant {ds : List Level} {s : State} (h : Packed ds s) (hw : s.params.wf = true)
    (he : ElapsedBounded s) (hr : RequestLineFollows s) : BlockInvariant s where
  params := hw
  fits := h.fits
  unwritten := h.unwrittenBitsZero
  elapsed := he
  pointer := h.pointerAgrees hw
  overrun := by
    intro ho
    rw [h.overruns] at ho
    rw [h.clocks]
    omega
  overrunFits := by
    have := Nat.two_pow_pos s.params.ovrW
    rw [OverrunFits, h.overruns]
    omega
  request := hr

/-! ### The Scheduler's half -/

theorem elapsedBounded_of_zero {s : State} (hw : s.params.wf = true) (he : s.elapsed = 0) : ElapsedBounded s := by
  have hidle := (params_counts hw).2.1
  refine ⟨fun _ => ?_, fun _ => he, fun _ => ?_⟩
  · rw [he]; exact hidle
  · rw [he]; exact Nat.zero_le _

/-- Every reaction keeps the bounds of `elapsed` (R34): a counting tick is one that stays within them. -/
theorem react_elapsedBounded {e : Event} {s t : State} (hw : s.params.wf = true) (hs : ElapsedBounded s)
    (ht : react e s = .next t) : ElapsedBounded t := by
  obtain ⟨-, -, hidle, htime⟩ := params_counts hw
  cases reaction_of_react ht with
  | sample | overrun => exact hs
  | reset | expire | done | timeout => exact elapsedBounded_of_zero hw rfl
  | request ha => exact elapsedBounded_of_zero hw (hs.2.1 ha)
  | hold ha he =>
    have hsucc := elapsed_succ s.elapsed (by omega)
    refine ⟨fun _ => ?_, fun h => absurd (ha.symm.trans h) (by decide), fun h => absurd (ha.symm.trans h) (by decide)⟩
    change (s.elapsed + 1).toNat + 1 ≤ s.params.idleTicks
    omega
  | wait ha _ he =>
    have hsucc := elapsed_succ s.elapsed (by omega)
    refine ⟨fun h => absurd (ha.symm.trans h) (by decide), fun h => absurd (ha.symm.trans h) (by decide), fun _ => ?_⟩
    change (s.elapsed + 1).toNat ≤ s.params.timeoutTicks
    omega

/-- Every reaction keeps the request line in step with the Acquisition State (R131). -/
theorem react_requestLineFollows {e : Event} {s t : State} (hs : RequestLineFollows s) (ht : react e s = .next t) :
    RequestLineFollows t := by
  cases reaction_of_react ht with
  | sample | overrun => exact hs
  | reset | done => exact ⟨nofun, nofun, fun _ _ => rfl⟩
  | expire => exact ⟨nofun, fun _ => rfl, nofun⟩
  | request => exact ⟨fun _ => rfl, nofun, nofun⟩
  | timeout => exact ⟨nofun, nofun, fun _ h => absurd rfl h⟩
  | hold ha =>
    exact ⟨fun h => absurd (ha.symm.trans h) (by decide), fun _ => rfl, fun _ _ => rfl⟩
  | wait ha =>
    exact ⟨hs.1, fun h => absurd (ha.symm.trans h) (by decide), fun h => absurd (ha.symm.trans h) (by decide)⟩

/-! ### The block -/

/-- One event keeps the invariants. -/
theorem react_blockInvariant {e : Event} {s t : State} (hs : BlockInvariant s) (ht : react e s = .next t) :
    BlockInvariant t :=
  (packed_history hs.params (packed_receivedLevels hs) ht).blockInvariant ((react_params ht).symm ▸ hs.params)
    (react_elapsedBounded hs.params hs.elapsed ht) (react_requestLineFollows hs.request ht)

/-- The invariants read the eight items and the parameters, nothing else. -/
theorem BlockInvariant.congr {s t : State} (h : BlockInvariant s) (hp : t.params = s.params) (hst : sameBlock s t) :
    BlockInvariant t := by
  obtain ⟨hsampler, ha, he, hr⟩ := hst
  refine ((packed_receivedLevels h).congr hp hsampler).blockInvariant (hp.symm ▸ h.params) ?_ ?_
  · have := h.elapsed
    simpa only [ElapsedBounded, ha, he, hp] using this
  · have := h.request
    simpa only [RequestLineFollows, ha, he, hr] using this

/-- Everything a step can do, by the kind of arrival. -/
theorem step_cases {s t : State} (h : step s = .next t) :
    (∃ e rest, s.stimulus = .event e :: rest ∧ react e { s with stimulus := rest } = .next t) ∨
    (∃ x y rest, s.stimulus = .together x y :: rest ∧
      react (orderOfPair s.draws x y).1
        { s with stimulus := .event (orderOfPair s.draws x y).2 :: rest, draws := s.draws + 1 } = .next t) ∨
    (∃ v rest b, s.stimulus = .decoderCall v :: rest ∧ t = callDecoder b { s with stimulus := rest }) ∨
    (s.stimulus = [] ∧ t = quiet s) := by
  cases hst : s.stimulus with
  | nil =>
    rw [step_nothing hst] at h
    exact .inr (.inr (.inr ⟨rfl, (Host.Outcome.next.inj h).symm⟩))
  | cons a rest =>
    cases a with
    | event e => exact .inl ⟨e, rest, rfl, step_event hst ▸ h⟩
    | together x y => exact .inr (.inl ⟨x, y, rest, rfl, step_together hst ▸ h⟩)
    | decoderCall v =>
      rw [step_decoderCall hst] at h
      cases hd : decodeFunctionWord v with
      | error r => rw [hd] at h; cases h
      | ok i =>
        rw [hd] at h
        obtain ⟨b, rfl⟩ := exec_function_next (decodeFunctionWord_eventOf hd) h
        exact .inr (.inr (.inl ⟨v, rest, b, rfl, rfl⟩))

/-- Taking an arrival touches nothing that the invariants read. -/
theorem BlockInvariant.withArrivals {s : State} (h : BlockInvariant s) (l : List Arrival) (n : Nat) :
    BlockInvariant { s with stimulus := l, draws := n } :=
  h.congr rfl ⟨⟨rfl, rfl, rfl, rfl, rfl⟩, rfl, rfl, rfl⟩

/-- Settles O53: an event keeps the invariants by `react_blockInvariant`; a call and a wait touch no item. -/
theorem stepKeepsInvariants : Obligations.StepKeepsInvariants := by
  unfold Obligations.StepKeepsInvariants
  intro s t hs ht
  rcases step_cases ht with ⟨e, rest, -, hr⟩ | ⟨x, y, rest, -, hr⟩ | ⟨v, rest, b, -, rfl⟩ | ⟨-, rfl⟩
  · exact react_blockInvariant (hs.withArrivals rest s.draws) hr
  · exact react_blockInvariant (hs.withArrivals _ _) hr
  · exact hs.congr rfl ⟨⟨rfl, rfl, rfl, rfl, rfl⟩, rfl, rfl, rfl⟩
  · exact hs.congr rfl ⟨⟨rfl, rfl, rfl, rfl, rfl⟩, rfl, rfl, rfl⟩

/-- Settles O2: reset is a cleared Sampler with `elapsed` 0 and the request line high. -/
theorem resetMeetsInvariants : Obligations.ResetMeetsInvariants := by
  unfold Obligations.ResetMeetsInvariants
  have hw : State.reset.params.wf = true := by decide
  exact packed_reset.blockInvariant hw (elapsedBounded_of_zero hw rfl) ⟨nofun, nofun, fun _ _ => rfl⟩

/-- Where the invariants hold every event is answered. -/
theorem BlockInvariant.react_answers {s : State} (h : BlockInvariant s) (e : Event) : ∃ t, react e s = .next t :=
  (packed_receivedLevels h).react_answers h.params e

/-- Settles O54: an event is answered where the invariants hold, and with nothing to arrive a step waits. -/
theorem eventsNeverStopTheMachine : Obligations.EventsNeverStopTheMachine := by
  unfold Obligations.EventsNeverStopTheMachine
  intro s hs hcall
  cases hst : s.stimulus with
  | nil => exact ⟨_, step_nothing hst⟩
  | cons a rest =>
    cases a with
    | event e => rw [step_event hst]; exact (hs.withArrivals rest s.draws).react_answers e
    | together x y => rw [step_together hst]; exact (hs.withArrivals _ _).react_answers _
    | decoderCall v => exact absurd hst (hcall v rest)

end Sys2Proof.Machine
end

section
/-! PROOF. The frame word, the buffer and the fields of a frame determine each other (30_encoding.md R71, R77;
20_memory.md R52, R53). -/

namespace Sys2Proof

/-- Bit `k` of the frame word is the `k`-th bit of the frame (R53). -/
theorem getLsbD_frameWord (b : FrameBuffer) {k : Nat} (hk : k < 52) :
    (frameWord b).getLsbD k = frameBit Config.Params.source b k := by
  simp only [frameWord, BitVec.getLsbD_append, frameBit]
  interval_cases k <;> rfl

/-- The four bits of the frame word from `4i` on are slot `i` (R53). -/
theorem extractLsb'_frameWord (b : FrameBuffer) {i : Nat} (hi : i < 13) :
    (frameWord b).extractLsb' (4 * i) 4 = readSlot b i := by
  apply BitVec.eq_of_getLsbD_eq
  intro j hj
  obtain ⟨hslot, hbit⟩ := (Machine.position_iff (k := 4 * i + j) (i := i) hj).1 rfl
  rw [BitVec.getLsbD_extractLsb', getLsbD_frameWord b (by omega), frameBit]
  change (decide (j < 4) && (readSlot b ((4 * i + j) / 4)).getLsbD ((4 * i + j) % 4)) = _
  rw [hslot, hbit, decide_eq_true hj, Bool.true_and]

theorem readSlot_bufferOfWord (w : BitVec 52) {i : Nat} (hi : i < 13) :
    readSlot (bufferOfWord w) i = w.extractLsb' (4 * i) 4 := by
  rw [readSlot, bufferOfWord, List.getD_eq_getElem _ _ (by rwa [List.length_ofFn]), List.getElem_ofFn]

/-- A buffer of 13 slots is the buffer of its word. -/
theorem bufferOfWord_frameWord {b : FrameBuffer} (h : b.length = 13) : bufferOfWord (frameWord b) = b := by
  refine List.ext_getElem (by rw [bufferOfWord, List.length_ofFn, h]) fun i hi hi' => ?_
  have hslot := readSlot_bufferOfWord (frameWord b) (h ▸ hi')
  rw [extractLsb'_frameWord b (h ▸ hi')] at hslot
  simpa [readSlot, hi, hi'] using hslot

/-- Every word is the word of its buffer. -/
theorem frameWord_bufferOfWord (w : BitVec 52) : frameWord (bufferOfWord w) = w := by
  apply BitVec.eq_of_getLsbD_eq
  intro k hk
  have hslot : k / 4 < 13 := by omega
  have hbit : k % 4 < 4 := by omega
  rw [getLsbD_frameWord _ hk, frameBit]
  change (readSlot (bufferOfWord w) (k / 4)).getLsbD (k % 4) = _
  rw [readSlot_bufferOfWord w hslot, BitVec.getLsbD_extractLsb', decide_eq_true hbit, Bool.true_and, Nat.div_add_mod]

/-- The word of a frame's fields is the word of the buffer they fill (R71). -/
theorem word_eq_frameWord (x : FrameFields) (p : Nibble) : x.word p = frameWord (x.buffer p) := by
  apply BitVec.eq_of_getLsbD_eq
  intro k hk
  rw [getLsbD_frameWord _ hk, frameBit]
  simp only [FrameFields.word, BitVec.getLsbD_append]
  interval_cases k <;> simp [readSlot, FrameFields.buffer, Config.Params.source]

/-- A nibble of the header is a nibble of the word. -/
theorem extractLsb'_header (w : BitVec 52) {i : Nat} (hi : i + 4 ≤ 16) :
    (w.extractLsb' 0 16).extractLsb' i 4 = w.extractLsb' i 4 := by
  apply BitVec.eq_of_getLsbD_eq
  intro j hj
  have hlt : i + j < 16 := by omega
  simp [hlt]

/-- The fields of a word fill the buffer of the word. -/
theorem ofWord_buffer (w : BitVec 52) : (FrameFields.ofWord w).buffer (dpOfWord w) = bufferOfWord w := by
  rw [FrameFields.buffer]
  simp only [FrameFields.ofWord, extractLsb'_header w (i := 0) (by omega), extractLsb'_header w (i := 4) (by omega),
    extractLsb'_header w (i := 8) (by omega), extractLsb'_header w (i := 12) (by omega)]
  rfl

/-- Settles O10: bits and slots by `getLsbD_frameWord`, and the two views are inverse to each other. -/
theorem frameWordBits : Obligations.FrameWordBits := by
  unfold Obligations.FrameWordBits
  exact ⟨fun b k => getLsbD_frameWord b k.isLt, fun _ => bufferOfWord_frameWord, frameWord_bufferOfWord⟩

/-! ### The fields of a frame word -/

/-- A nibble field of the word is the slot it stands in (R71). -/
theorem extractLsb'_word (x : FrameFields) (p : Nibble) {i : Nat} (hi : i < 13) :
    (x.word p).extractLsb' (4 * i) 4 = readSlot (x.buffer p) i := by
  rw [word_eq_frameWord, extractLsb'_frameWord _ hi]

/-- The header is the lowest 16 bits of the word (R71, R76). -/
theorem extractLsb'_word_header (x : FrameFields) (p : Nibble) : (x.word p).extractLsb' 0 16 = x.h := by
  apply BitVec.eq_of_getLsbD_eq
  intro k hk
  simp only [FrameFields.word, BitVec.getLsbD_extractLsb', BitVec.getLsbD_append]
  simp [hk]

@[simp] theorem ofWord_word (x : FrameFields) (p : Nibble) : FrameFields.ofWord (x.word p) = x := by
  rw [FrameFields.ofWord, extractLsb'_word_header]
  have hfield := fun {i} => extractLsb'_word x p (i := i)
  have hs := hfield (i := 4) (by decide)
  have ha := hfield (i := 5) (by decide)
  have hb := hfield (i := 6) (by decide)
  have hc := hfield (i := 7) (by decide)
  have hd := hfield (i := 8) (by decide)
  have he := hfield (i := 9) (by decide)
  have hf := hfield (i := 10) (by decide)
  have hu := hfield (i := 12) (by decide)
  rw [hs, ha, hb, hc, hd, he, hf, hu]
  rfl

@[simp] theorem dpOfWord_word (x : FrameFields) (p : Nibble) : dpOfWord (x.word p) = p :=
  extractLsb'_word x p (i := 11) (by decide)

theorem word_ofWord (w : BitVec 52) : (FrameFields.ofWord w).word (dpOfWord w) = w := by
  rw [word_eq_frameWord, ofWord_buffer, frameWord_bufferOfWord]

/-- Settles O9: the buffer by its definition, the bits of `W` slot by slot, and any word is rebuilt from its fields. -/
theorem frameFieldLayout : Obligations.FrameFieldLayout := by
  unfold Obligations.FrameFieldLayout
  refine ⟨fun x p => ⟨rfl, rfl, rfl, rfl, rfl, rfl, rfl, rfl, rfl, rfl, rfl, rfl, rfl, rfl⟩, fun x p => ?_,
    fun w => ⟨word_ofWord w, ofWord_buffer w⟩⟩
  have hfield := fun {i} => extractLsb'_word x p (i := i)
  exact ⟨extractLsb'_word_header x p, hfield (i := 4) (by decide), hfield (i := 5) (by decide),
    hfield (i := 6) (by decide), hfield (i := 7) (by decide), hfield (i := 8) (by decide), hfield (i := 9) (by decide),
    hfield (i := 10) (by decide), hfield (i := 11) (by decide), hfield (i := 12) (by decide)⟩

/-! ### The selector of a valid frame -/

/-- The mask of R77 leaves the decimal-point nibble alone. -/
theorem word_and_mask (w : BitVec 52) :
    w &&& 0x0F00000000000 = (0 : BitVec 4) ++ dpOfWord w ++ (0 : BitVec 44) := by
  have hmask : (0x0F00000000000 : BitVec 52) = (0 : BitVec 4) ++ BitVec.allOnes 4 ++ (0 : BitVec 44) := by decide
  apply BitVec.eq_of_getLsbD_eq
  intro k hk
  rw [hmask]
  simp only [BitVec.getLsbD_and, BitVec.getLsbD_append, BitVec.getLsbD_allOnes, dpOfWord, BitVec.getLsbD_extractLsb']
  by_cases h44 : k < 44
  · simp [h44]
  · by_cases h4 : k - 44 < 4
    · simp [h44, h4, Nat.add_sub_cancel' (Nat.le_of_not_lt h44)]
    · simp [h44, h4]

/-- The mask and match of a valid frame (R77) read the decimal-point nibble and nothing else. -/
theorem validSelector_iff (w : BitVec 52) : w &&& 0x0F00000000000 = 0x0200000000000 ↔ dpOfWord w = 2 := by
  have hnibble : ∀ n : Nibble, (0 : BitVec 4) ++ n ++ (0 : BitVec 44) = 0x0200000000000 ↔ n = 2 := by decide
  rw [word_and_mask]
  exact hnibble _

end Sys2Proof
end

section
/-! PROOF. Decoding and encoding of operations and traces (30_encoding.md R82 to R85), and the operation a step runs. -/

namespace Sys2Proof

open Machine

/-! ### Function words -/

/-- A function word carries its tag and the fields of its frame. -/
theorem decodeFunctionWord_functionWord (tag : Nibble) (x : FrameFields) (p : Nibble) :
    decodeFunctionWord (functionWord tag x p) =
      if tag = 0 then (if p = Config.dpLiteralSource then .ok (.frameValid x) else .ok (.frameInvalid x p))
      else if tag = 1 then .ok (.decode x p) else .error (.functionTag tag) := by
  have hword : (functionWord tag x p).extractLsb' 0 52 = x.word p := by
    rw [functionWord, BitVec.extractLsb'_append_eq_of_add_le (by omega), BitVec.extractLsb'_eq_self]
  have htag : (functionWord tag x p).extractLsb' 52 4 = tag := by
    rw [functionWord, BitVec.extractLsb'_append_eq_of_le (by omega)]
    exact BitVec.extractLsb'_eq_self
  simp only [decodeFunctionWord, hword, htag, ofWord_word, dpOfWord_word]

/-- A tag of 2 or more names no row (log entry 5). -/
theorem decodeFunctionWord_unusedTag {v : BitVec 56} (h : 2 ≤ (v.extractLsb' 52 4).toNat) :
    decodeFunctionWord v = .error (.functionTag (v.extractLsb' 52 4)) := by
  have h0 : v.extractLsb' 52 4 ≠ (0 : Nibble) := fun h' => by rw [h'] at h; exact absurd h (by decide)
  have h1 : v.extractLsb' 52 4 ≠ (1 : Nibble) := fun h' => by rw [h'] at h; exact absurd h (by decide)
  simp only [decodeFunctionWord, if_neg h0, if_neg h1]

/-- `FRAME.INVALID` is read only where the decimal-point nibble is not 2. -/
theorem decodeFunctionWord_wellFormed {v : BitVec 56} {i : Instr} (h : decodeFunctionWord v = .ok i) :
    i.wellFormed = true := by
  simp only [decodeFunctionWord] at h
  split at h
  · split at h
    next => cases h; rfl
    next hdp => cases h; exact bne_iff_ne.2 hdp
  · split at h
    next => cases h; rfl
    next => cases h

/-! ### Operation bytes -/

/-- The operation map selects an operation of the event it is asked about (R83). -/
@[simp] theorem eventOf_operationOf (c : Conditions) (e : Event) (st : AcquisitionState) :
    eventOf (operationOf c e st) = some e := by
  cases e with
  | rst => rfl
  | clkFall d => simp only [operationOf]; split <;> rfl
  | tick =>
    cases st with
    | awaitingWindow => simp only [operationOf]; split <;> rfl
    | requestSent => rfl
    | awaitingData =>
      simp only [operationOf]
      split
      · split <;> rfl
      · split <;> rfl

/-- An operation byte is read as an operation of an event. -/
theorem decodeOperation_eventOf {b : Byte} {i : Instr} (h : decodeOperation b = .ok i) : ∃ e, eventOf i = some e := by
  unfold decodeOperation at h
  split at h
  · cases h; exact ⟨_, eventOf_operationOf _ _ _⟩
  · cases h; exact ⟨_, eventOf_operationOf _ _ _⟩
  · split at h
    · cases h; exact ⟨_, eventOf_operationOf _ _ _⟩
    · cases h

theorem wellFormed_of_eventOf {i : Instr} {e : Event} (h : eventOf i = some e) : i.wellFormed = true := by
  cases i with
  | frameInvalid x p => cases h
  | _ => rfl

/-! ### The decoder and the encoder -/

/-- Settles O6: the seven bytes of a function word by its tag and fields, the one byte of an event row by its value. -/
theorem decodeEncodeRoundTrip : Obligations.DecodeEncodeRoundTrip := by
  unfold Obligations.DecodeEncodeRoundTrip
  intro i hi
  cases i with
  | frameValid x => rw [encode, decode_bytesOfFunctionWord, decodeFunctionWord_functionWord]; rfl
  | frameInvalid x p =>
    have hp : p ≠ Config.dpLiteralSource := bne_iff_ne.1 hi
    rw [encode, decode_bytesOfFunctionWord, decodeFunctionWord_functionWord, if_pos rfl, if_neg hp]
  | decode x p => rw [encode, decode_bytesOfFunctionWord, decodeFunctionWord_functionWord]; rfl
  | clkSample d => cases d <;> rfl
  | clkOverrun d => cases d <;> rfl
  | rst | tickAwHold | tickAwExpire | tickRs | tickAdDoneOk | tickAdDoneErr | tickAdTimeout | tickAdWait => rfl

/-- What the decoder accepts is well-formed: an event row always, a function row by the nibble it was read from. -/
theorem decode_wellFormed {bytes : List Byte} {i : Instr} (h : decode bytes = .ok i) : i.wellFormed = true := by
  unfold decode at h
  split at h
  · obtain ⟨e, he⟩ := decodeOperation_eventOf h
    exact wellFormed_of_eventOf he
  · exact decodeFunctionWord_wellFormed h
  · cases h

/-- Settles O7: `decode_wellFormed`, and then the round trip of O6. -/
theorem decodedOperationsAreWellFormed : Obligations.DecodedOperationsAreWellFormed := by
  unfold Obligations.DecodedOperationsAreWellFormed
  exact fun bytes i h => ⟨decode_wellFormed h, decodeEncodeRoundTrip i (decode_wellFormed h)⟩

/-- Settles O8: each event row is one byte, compared with its mask and match; the frame rows by `validSelector_iff`. -/
theorem encodingsMatchTheTable : Obligations.EncodingsMatchTheTable := by
  unfold Obligations.EncodingsMatchTheTable
  refine ⟨fun i b h => ?_, fun x p => (validSelector_iff _).trans (by rw [dpOfWord_word])⟩
  cases i with
  | frameValid x => cases h
  | frameInvalid x p => cases h
  | decode x p => cases h
  | clkSample d => cases d <;> (cases h; decide)
  | clkOverrun d => cases d <;> (cases h; decide)
  | rst | tickAwHold | tickAwExpire | tickRs | tickAdDoneOk | tickAdDoneErr | tickAdTimeout | tickAdWait =>
    cases h; decide

/-- Settles O5: fifteen words, each read by evaluation. -/
theorem tableWordsDecode : Obligations.TableWordsDecode := by
  unfold Obligations.TableWordsDecode
  decide

/-! ### Traces -/

theorem eventOfTraceByte_traceByte (e : Event) : eventOfTraceByte e.traceByte = .ok e := by
  cases e with
  | tick => rfl
  | rst => rfl
  | clkFall d => cases d <;> rfl

/-- Only the four codes are events, and each byte below 4 is the byte of its event (R85). -/
theorem traceByte_of_eventOfTraceByte {b : Byte} {e : Event} (h : eventOfTraceByte b = .ok e) : e.traceByte = b := by
  have hcode : ∀ b : Byte, b.toNat < 4 → (Event.ofCode (b.setWidth 2)).traceByte = b := by decide
  unfold eventOfTraceByte at h
  split at h
  next hb => cases h; exact hcode b hb
  next => cases h

theorem decodeTrace_encodeTrace (es : List Event) : decodeTrace (encodeTrace es) = .ok es := by
  induction es with
  | nil => rfl
  | cons e es ih =>
    rw [encodeTrace] at ih
    simp only [encodeTrace, List.map_cons, decodeTrace, eventOfTraceByte_traceByte, ih]

theorem encodeTrace_of_decodeTrace {bytes : List Byte} {es : List Event} (h : decodeTrace bytes = .ok es) :
    encodeTrace es = bytes := by
  induction bytes generalizing es with
  | nil => cases h; rfl
  | cons b bs ih =>
    simp only [decodeTrace] at h
    split at h
    · cases h
    next e he =>
      split at h
      · cases h
      next fs hfs =>
        cases h
        exact List.cons_eq_cons.2 ⟨traceByte_of_eventOfTraceByte he, ih hfs⟩

/-- Settles O11: byte by byte, by induction on the trace and on the bytes. -/
theorem traceBytesRoundTrip : Obligations.TraceBytesRoundTrip := by
  unfold Obligations.TraceBytesRoundTrip
  exact ⟨decodeTrace_encodeTrace, fun _ _ => encodeTrace_of_decodeTrace⟩

/-! ### The operation that a step runs -/

/-- A step runs what the fetched bytes decode to. -/
theorem step_of_decode {s s' : State} {bytes : List Byte} {i : Instr} (hf : fetch s = some (bytes, s'))
    (hd : decode bytes = .ok i) : step s = exec i s' := by
  simp only [step, hf, hd]

theorem step_decoderCall_ok {s : State} {v : BitVec 56} {rest : List Arrival} {i : Instr}
    (hst : s.stimulus = .decoderCall v :: rest) (hd : decodeFunctionWord v = .ok i) :
    step s = exec i { s with stimulus := rest } := by
  rw [step_decoderCall hst, hd]

/-- Settles O4: what a step does with fetched bytes, with an event, with a call, and with nothing to arrive. -/
theorem stepRunsDecodedOperation : Obligations.StepRunsDecodedOperation := by
  unfold Obligations.StepRunsDecodedOperation
  exact fun s => ⟨fun _ _ _ => step_of_decode, fun _ _ => step_event, fun _ _ _ => step_decoderCall_ok, step_nothing⟩

/-- Settles O13: the decoder rejects the tag and the step passes the reason on. -/
theorem unusedFunctionTagRefused : Obligations.UnusedFunctionTagRefused := by
  unfold Obligations.UnusedFunctionTagRefused
  intro s v rest hst htag
  rw [step_decoderCall hst, decodeFunctionWord_unusedTag htag]

end Sys2Proof
end

section
/-! PROOF. Which operation an event selects: the guard of each meaning is the condition under which the operation map
selects it (10_state.md R42; 30_encoding.md R83). -/

namespace Sys2Proof.Machine

/-! ### The guards -/

/-- The guard of each operation's meaning; the rows that are always answered have none. -/
def guardOf (s : State) : Instr → Bool
  | .frameValid _ => true
  | .frameInvalid _ _ => true
  | .decode _ _ => true
  | .rst => true
  | .clkSample _ => !frameComplete s
  | .clkOverrun _ => frameComplete s
  | .tickAwHold => s.acq == .awaitingWindow && !windowExpired s
  | .tickAwExpire => s.acq == .awaitingWindow && windowExpired s
  | .tickRs => s.acq == .requestSent
  | .tickAdDoneOk => s.acq == .awaitingData && frameComplete s && decodeSucceeds s
  | .tickAdDoneErr => s.acq == .awaitingData && frameComplete s && !decodeSucceeds s
  | .tickAdTimeout => s.acq == .awaitingData && !frameComplete s && timedOut s
  | .tickAdWait => s.acq == .awaitingData && !frameComplete s && !timedOut s

/-- A guarded operation is refused as not selected exactly where its guard fails, if what it guards is not. -/
theorem whenSelected_refused {c : Bool} {r : Result} (h : r ≠ .refused .notSelected) :
    whenSelected c r = .refused .notSelected ↔ c = false := by
  cases c <;> simp [h]

/-- The refusal `notSelected` is a failed guard and nothing else (log entry 18). -/
theorem exec_refused_iff (i : Instr) (s : State) : exec i s = .refused .notSelected ↔ guardOf s i = false := by
  cases i with
  | frameValid | frameInvalid | decode | rst => exact ⟨nofun, nofun⟩
  | clkSample d =>
    refine whenSelected_refused ?_
    split <;> exact nofun
  | clkOverrun | tickAwHold | tickAwExpire | tickRs | tickAdDoneOk | tickAdDoneErr | tickAdTimeout | tickAdWait =>
    exact whenSelected_refused nofun

/-- For an event the operation map selects the operation whose guard holds (R83). -/
theorem operationOf_eq_iff {i : Instr} {e : Event} (s : State) (hi : eventOf i = some e) :
    operationOf (conditionsOf s) e s.acq = i ↔ guardOf s i = true := by
  cases i with
  | frameValid | frameInvalid | decode => cases hi
  | rst => cases hi; exact ⟨fun _ => rfl, fun _ => rfl⟩
  | clkSample d | clkOverrun d => cases hi; cases hc : frameComplete s <;> simp [operationOf, guardOf, hc]
  | tickAwHold | tickAwExpire | tickRs | tickAdDoneOk | tickAdDoneErr | tickAdTimeout | tickAdWait =>
    cases hi
    cases ha : s.acq with
    | awaitingWindow => cases hw : windowExpired s <;> simp [operationOf, guardOf, ha, hw]
    | requestSent => simp [operationOf, guardOf, ha]
    | awaitingData =>
      cases hc : frameComplete s with
      | true => cases hd : decodeSucceeds s <;> simp [operationOf, guardOf, ha, hc, hd]
      | false => cases ht : timedOut s <;> simp [operationOf, guardOf, ha, hc, ht]

/-- An event runs the operation whose guard holds. -/
theorem react_eq_exec {i : Instr} {e : Event} {s : State} (hi : eventOf i = some e) (hg : guardOf s i = true) :
    react e s = exec i s := by
  rw [react, (operationOf_eq_iff s hi).2 hg]

/-- Settles O32: refusal and selection are both read off the guard. -/
theorem onlySelectedOperationsAnswer : Obligations.OnlySelectedOperationsAnswer := by
  unfold Obligations.OnlySelectedOperationsAnswer
  intro i e s hi
  rw [exec_refused_iff, Ne, operationOf_eq_iff s hi, Bool.not_eq_true]

/-! ### The conditions of R42 -/

/-- Settles O14: an event's step is its reaction, and that of an edge looks at `clocks` only. -/
theorem edgeSelectsSampleOrOverrun : Obligations.EdgeSelectsSampleOrOverrun := by
  unfold Obligations.EdgeSelectsSampleOrOverrun
  intro d s rest hst
  rw [step_event hst]
  exact ⟨fun hc => react_clkFall_complete d hc, fun hc => react_clkFall_incomplete d hc⟩

/-- "`DECODE` succeeds" where the gate passes and the strict option, where it is on, finds no digit above 9. -/
theorem decodeSucceeds_iff (s : State) :
    decodeSucceeds s = true ↔ readSlot s.buf s.params.layout.idxDp = s.params.layout.dpLiteral ∧
      (s.params.strictDigits = true → hasNonDecimalDigit s.params.layout s.buf = false) := by
  rw [← frameValid_iff, decodeSucceeds, Conditions.decodes, Bool.and_eq_true, conditionsOf_frameValid,
    conditionsOf_digitRejected, digitRejected]
  cases s.params.strictDigits <;> simp

/-- No digit is above 9 exactly where every digit slot is at most 9. -/
theorem not_hasNonDecimalDigit_iff {p : Config.Params} (h : p.wf = true) (b : FrameBuffer) :
    hasNonDecimalDigit p.layout b = false ↔
      ∀ i, p.layout.idxDigFirst ≤ i → i ≤ p.layout.idxDigLast → (readSlot b i).toNat ≤ 9 := by
  rw [← Bool.not_eq_true, hasNonDecimalDigit_iff h]
  simp only [not_exists, not_and, Nat.not_lt]

/-- A complete frame that decodes runs `TICK.AD.DONE.OK`. -/
theorem react_done_ok {s : State} (ha : s.acq = .awaitingData) (hc : s.clocks = s.params.nBits)
    (hd : decodeSucceeds s = true) : react .tick s = exec .tickAdDoneOk s :=
  react_eq_exec rfl (by simp [guardOf, ha, (frameComplete_iff s).2 hc, hd])

/-- A complete frame that does not decode runs `TICK.AD.DONE.ERR`. -/
theorem react_done_err {s : State} (ha : s.acq = .awaitingData) (hc : s.clocks = s.params.nBits)
    (hd : ¬ decodeSucceeds s = true) : react .tick s = exec .tickAdDoneErr s :=
  react_eq_exec rfl (by simp [guardOf, ha, (frameComplete_iff s).2 hc, hd])

/-- Settles O31: each condition is the guard of the operation it selects; `decodeSucceeds_iff` says when `DECODE`
succeeds. -/
theorem conditionsSelectOperations : Obligations.ConditionsSelectOperations := by
  unfold Obligations.ConditionsSelectOperations
  refine ⟨fun d s => ⟨react_clkFall_complete d, react_clkFall_incomplete d⟩, fun s ha => ⟨fun he => ?_, fun he => ?_⟩,
    fun s ha hc => ⟨fun he => ?_, fun he => ?_⟩, fun s ha hc hoff => ⟨fun hdp => ?_, fun hdp => ?_⟩,
    fun s ha hc hon hw => ⟨fun hok => ?_, fun hfail => ?_⟩⟩
  · exact react_eq_exec rfl (by simp [guardOf, ha, (windowExpired_iff s).2 he])
  · exact react_eq_exec rfl (by simp [guardOf, ha, (not_windowExpired_iff s).2 he])
  · exact react_eq_exec rfl (by simp [guardOf, ha, (not_frameComplete_iff s).2 hc, (timedOut_iff s).2 he])
  · exact react_eq_exec rfl (by simp [guardOf, ha, (not_frameComplete_iff s).2 hc, (not_timedOut_iff s).2 he])
  · exact react_done_ok ha hc ((decodeSucceeds_iff s).2 ⟨hdp, fun hon => absurd (hoff.symm.trans hon) (by decide)⟩)
  · exact react_done_err ha hc fun hd => hdp ((decodeSucceeds_iff s).1 hd).1
  · exact react_done_ok ha hc ((decodeSucceeds_iff s).2 ⟨hok.1, fun _ => (not_hasNonDecimalDigit_iff hw _).2 hok.2⟩)
  · refine react_done_err ha hc fun hd => ?_
    obtain ⟨hdp, hdigits⟩ := (decodeSucceeds_iff s).1 hd
    obtain hne | hex := hfail
    · exact hne hdp
    · exact absurd ((hasNonDecimalDigit_iff hw _).2 hex) (by simp [hdigits hon])

/-! ### A placed word -/

/-- Placing an operation leaves the arrivals alone. -/
theorem armFor_stimulus (i : Instr) (s : State) : (armFor i s).stimulus = s.stimulus := by
  cases i with
  | clkSample | tickAdTimeout | tickAdWait => simp only [armFor, withFrameIncomplete]; split <;> rfl
  | clkOverrun | tickAdDoneOk | tickAdDoneErr => simp only [armFor, withFrameComplete]; split <;> rfl
  | _ => rfl

theorem frameComplete_withFrameComplete (s : State) : frameComplete (withFrameComplete s) = true := by
  unfold withFrameComplete
  split
  · assumption
  · exact (frameComplete_iff _).2 rfl

/-- A cleared Sampler has no complete frame, because a frame has at least one bit. -/
theorem frameComplete_withFrameIncomplete {s : State} (hw : s.params.wf = true) :
    frameComplete (withFrameIncomplete s) = false := by
  unfold withFrameIncomplete
  split
  · exact (not_frameComplete_iff _).2 (Nat.ne_of_lt (nBits_pos hw))
  · exact Bool.eq_false_iff.2 ‹_›

@[simp] theorem withFrameComplete_params (s : State) : (withFrameComplete s).params = s.params := by
  unfold withFrameComplete; split <;> rfl

@[simp] theorem withFrameIncomplete_params (s : State) : (withFrameIncomplete s).params = s.params := by
  unfold withFrameIncomplete; split <;> rfl

/-- What a slot of the cleared buffer holds after one write. -/
theorem readSlot_write_cleared {n j : Nat} (v : Nibble) (hj : j < n) (i : Nat) :
    readSlot (writeSlot (clearedBuffer n) j v) i = if i = j then v else 0 := by
  split
  next h => rw [h, readSlot_writeSlot_same v (by rwa [length_clearedBuffer])]
  next h => rw [readSlot_writeSlot_other _ v h, readSlot_clearedBuffer]

/-- The smallest valid frame passes the gate, and its digits are decimal because the literal is at most 6. -/
theorem decodeSucceeds_smallestValidBuffer {s : State} (hw : s.params.wf = true)
    (hb : s.buf = smallestValidBuffer s.params) : decodeSucceeds s = true := by
  obtain ⟨-, -, hdp, -, -, hlit⟩ := params_layout hw
  refine (decodeSucceeds_iff s).2 ⟨?_, fun _ => (not_hasNonDecimalDigit_iff hw _).2 fun i _ _ => ?_⟩
  · rw [hb, smallestValidBuffer, readSlot_write_cleared _ hdp, if_pos rfl]
  · rw [hb, smallestValidBuffer, readSlot_write_cleared _ hdp]
    split
    · omega
    · exact Nat.zero_le _

/-- A frame with the lowest bit of the literal turned over fails the gate. -/
theorem not_decodeSucceeds_gateFailingBuffer {s : State} (hw : s.params.wf = true)
    (hb : s.buf = gateFailingBuffer s.params) : decodeSucceeds s = false := by
  have hne : ∀ n : Nibble, n ^^^ 1 ≠ n := by decide
  refine Bool.eq_false_iff.2 fun hd => ?_
  have hdp := ((decodeSucceeds_iff s).1 hd).1
  rw [hb, gateFailingBuffer, readSlot_write_cleared _ (params_layout hw).2.2.1, if_pos rfl] at hdp
  exact hne _ hdp

/-- The verdict of the Decoder reads the buffer and the parameters. -/
theorem decodeSucceeds_congr {s t : State} (hb : t.buf = s.buf) (hp : t.params = s.params) :
    decodeSucceeds t = decodeSucceeds s := by
  rw [decodeSucceeds_eq, decodeSucceeds_eq, hb, hp]
  unfold decodeFrame
  split
  · rfl
  · split <;> rfl

/-- Armed for `TICK.AD.DONE.OK` the buffer is one that decodes. -/
theorem decodeSucceeds_armFor_done_ok {s : State} (hw : s.params.wf = true) :
    decodeSucceeds (armFor .tickAdDoneOk s) = true := by
  have hp : (armFor .tickAdDoneOk s).params = s.params := withFrameComplete_params s
  have hb : (armFor .tickAdDoneOk s).buf = if decodeSucceeds s then s.buf else smallestValidBuffer s.params := rfl
  split at hb
  next hd => exact (decodeSucceeds_congr hb hp).trans hd
  next => exact decodeSucceeds_smallestValidBuffer (hp ▸ hw) (hp ▸ hb)

/-- Armed for `TICK.AD.DONE.ERR` the buffer is one that does not decode. -/
theorem decodeSucceeds_armFor_done_err {s : State} (hw : s.params.wf = true) :
    decodeSucceeds (armFor .tickAdDoneErr s) = false := by
  have hp : (armFor .tickAdDoneErr s).params = s.params := withFrameComplete_params s
  have hb : (armFor .tickAdDoneErr s).buf = if decodeSucceeds s then gateFailingBuffer s.params else s.buf := rfl
  split at hb
  next => exact not_decodeSucceeds_gateFailingBuffer (hp ▸ hw) (hp ▸ hb)
  next hd => exact (decodeSucceeds_congr hb hp).trans (Bool.eq_false_iff.2 hd)

/-- A state armed for an operation meets its guard, where the parameters leave it a way to be selected (log entry
28). -/
theorem guardOf_armFor {s : State} (hw : s.params.wf = true) (hidle : 2 ≤ s.params.idleTicks)
    (htime : 1 ≤ s.params.timeoutTicks) (i : Instr) : guardOf (armFor i s) i = true := by
  obtain ⟨-, -, hidle', htime'⟩ := params_counts hw
  have hcomplete := frameComplete_withFrameComplete s
  have hincomplete := frameComplete_withFrameIncomplete hw
  have hinc_params := withFrameIncomplete_params s
  cases i with
  | frameValid | frameInvalid | decode | rst | tickRs => rfl
  | clkSample => simp [guardOf, armFor, hincomplete]
  | clkOverrun => exact hcomplete
  | tickAwHold =>
    have hexp : windowExpired (armFor .tickAwHold s) = false := by
      rw [not_windowExpired_iff]
      change (if windowExpired s then 0 else s.elapsed).toNat + 1 < s.params.idleTicks
      split
      · exact hidle
      next h => exact (not_windowExpired_iff s).1 (Bool.eq_false_iff.2 h)
    simp only [guardOf, hexp]
    rfl
  | tickAwExpire =>
    have hexp : windowExpired (armFor .tickAwExpire s) = true := by
      rw [windowExpired_iff]
      change s.params.idleTicks ≤
        (if windowExpired s then s.elapsed else BitVec.ofNat 8 (s.params.idleTicks - 1)).toNat + 1
      split
      next h => exact (windowExpired_iff s).1 h
      · rw [BitVec.toNat_ofNat]; omega
    simp only [guardOf, hexp]
    rfl
  | tickAdDoneOk =>
    have hc : frameComplete (armFor .tickAdDoneOk s) = true := hcomplete
    simp only [guardOf, hc, decodeSucceeds_armFor_done_ok hw]
    rfl
  | tickAdDoneErr =>
    have hc : frameComplete (armFor .tickAdDoneErr s) = true := hcomplete
    simp only [guardOf, hc, decodeSucceeds_armFor_done_err hw]
    rfl
  | tickAdTimeout =>
    have hc : frameComplete (armFor .tickAdTimeout s) = false := hincomplete
    have ht : timedOut (armFor .tickAdTimeout s) = true := by
      rw [timedOut_iff]
      change (withFrameIncomplete s).params.timeoutTicks <
        (if timedOut s then s.elapsed else BitVec.ofNat 8 s.params.timeoutTicks).toNat + 1
      rw [hinc_params]
      split
      next h => exact (timedOut_iff s).1 h
      · rw [BitVec.toNat_ofNat]; omega
    simp only [guardOf, hc, ht]
    rfl
  | tickAdWait =>
    have hc : frameComplete (armFor .tickAdWait s) = false := hincomplete
    have ht : timedOut (armFor .tickAdWait s) = false := by
      rw [not_timedOut_iff]
      change (if timedOut s then 0 else s.elapsed).toNat + 1 ≤ (withFrameIncomplete s).params.timeoutTicks
      rw [hinc_params]
      split
      · exact htime
      next h => exact (not_timedOut_iff s).1 (Bool.eq_false_iff.2 h)
    simp only [guardOf, hc, ht]
    rfl

/-- The bytes of a word of the event format are one operation byte. -/
theorem decodeTableWord_short {nbits w : Nat} {i : Instr} (hn : nbits ≤ 8) (h : decodeTableWord nbits w = some i) :
    ∃ e, eventOf i = some e := by
  rw [decodeTableWord, tableBytes, if_pos hn] at h
  cases hd : decodeOperation (BitVec.ofNat 8 w) with
  | error r => simp only [decode, hd] at h; cases h
  | ok j =>
    simp only [decode, hd] at h
    cases h
    exact decodeOperation_eventOf hd

/-- The bytes of a longer word are a function word. -/
theorem decodeTableWord_long {nbits w : Nat} {i : Instr} (hn : ¬ nbits ≤ 8) (h : decodeTableWord nbits w = some i) :
    decodeFunctionWord (BitVec.ofNat 56 w) = .ok i := by
  rw [decodeTableWord, tableBytes, if_neg hn, decode_bytesOfFunctionWord] at h
  cases hd : decodeFunctionWord (BitVec.ofNat 56 w) with
  | error r => rw [hd] at h; cases h
  | ok j => rw [hd] at h; cases h; rfl

/-- Placing a word of an event presents the event in a state armed for its operation. -/
theorem placeWord_event {s : State} {nbits w : Nat} {i : Instr} {e : Event} (h : decodeTableWord nbits w = some i)
    (he : eventOf i = some e) : placeWord s nbits w = { armFor i s with stimulus := .event e :: s.stimulus } := by
  simp only [placeWord, h, he]

/-- Placing a word of the Decoder presents the call. -/
theorem placeWord_call {s : State} {nbits w : Nat} {i : Instr} (h : decodeTableWord nbits w = some i)
    (he : eventOf i = none) (hn : ¬ nbits ≤ 8) :
    placeWord s nbits w = { s with stimulus := .decoderCall (BitVec.ofNat 56 w) :: s.stimulus } := by
  simp only [placeWord, h, he, if_neg hn]

theorem armFor_of_eventOf_none {i : Instr} (s : State) (he : eventOf i = none) : armFor i s = s := by
  cases i with
  | frameValid | frameInvalid | decode => rfl
  | _ => cases he

/-- Settles O12: the event of a placed word selects the operation whose guard the armed state meets; a call is decoded
again from the same word. -/
theorem placedWordRunsNext : Obligations.PlacedWordRunsNext := by
  unfold Obligations.PlacedWordRunsNext
  intro s nbits w i hw hidle htime h
  rw [State.withFetchWord]
  cases he : eventOf i with
  | some e =>
    have harm : { armFor i s with stimulus := s.stimulus } = armFor i s := by rw [← armFor_stimulus i s]
    rw [placeWord_event h he, step_event rfl]
    exact (congrArg (react e) harm).trans (react_eq_exec he (guardOf_armFor hw hidle htime i))
  | none =>
    have hn : ¬ nbits ≤ 8 := fun hn => by
      obtain ⟨e, he'⟩ := decodeTableWord_short hn h
      exact absurd (he.symm.trans he') nofun
    rw [placeWord_call h he hn, step_decoderCall_ok rfl (decodeTableWord_long hn h), armFor_of_eventOf_none s he]

end Sys2Proof.Machine
end

section
/-! PROOF. The Bit Sampler's two operations and runs of edges (40_sampler.md section 4; 70_reset_and_hazards.md H4). -/

namespace Sys2Proof.Machine

/-! ### One edge -/

/-- Settles O16: `byte_pos` names no slot, which is the one fault of the model. -/
theorem sampleOutsideTheBufferFaults : Obligations.SampleOutsideTheBufferFaults := by
  unfold Obligations.SampleOutsideTheBufferFaults
  intro d s hc hb
  simp only [exec, execClkSample, (not_frameComplete_iff s).2 hc, Bool.not_false, whenSelected_true,
    slotIndex?_eq_none.2 hb]

theorem satInc_of_lt {w v : Nat} (h : v < 2 ^ w - 1) : satInc w v = v + 1 := if_pos h

theorem satInc_of_ge {w v : Nat} (h : 2 ^ w - 1 ≤ v) : satInc w v = v := if_neg (Nat.not_lt.2 h)

/-- Settles O17: the count is `satInc`, on either side of its maximum. -/
theorem clkOverrunResult : Obligations.ClkOverrunResult := by
  unfold Obligations.ClkOverrunResult
  intro d s hc
  have hexec : exec (.clkOverrun d) s = .next { quiet s with overrunCount := satInc s.params.ovrW s.overrunCount } :=
    exec_clkOverrun_next.2 ⟨hc, rfl⟩
  refine ⟨fun h => ?_, fun h => ?_⟩
  · rw [hexec, satInc_of_lt h]; rfl
  · rw [hexec, satInc_of_ge h]; rfl

/-- Where R33 and R35 hold, storing a bit at the pointer leaves the other bits of the slot alone. -/
theorem addBit_pointer_bit_other {s : State} (hw : s.params.wf = true) (hfit : FitsGeometry s.params s.buf)
    (hzero : UnwrittenBitsZero s) (hptr : PointerAgrees s) (hc : s.clocks ≠ s.params.nBits) {k : Nat} (hk : k < 4)
    (hne : k ≠ s.bitPos.val) :
    (readSlot (addBit s.params.nibbleW s.buf s.bytePos s.bitPos) s.bytePos).getLsbD k =
      (readSlot s.buf s.bytePos).getLsbD k := by
  obtain ⟨h1, h4, -⟩ := params_geometry hw
  have hslot : s.bytePos < s.buf.length := hfit.1 ▸ bytePos_lt hw hptr hc
  have hbit : ((⟨k, hk⟩ : Fin 4) == s.bitPos) = false := by simpa [Fin.ext_iff] using hne
  rw [addBit_same _ _ hslot]
  refine (addToSlot_bit h1 h4 _ s.bitPos ⟨k, hk⟩ hptr.2.2 (readSlot_lt hfit _)
    (addressed_bit_clear hzero hptr hc)).trans ?_
  rw [hbit, Bool.or_false]

/-- Settles O18: a sample writes the buffer only by `addBit` at the pointer, and only for a high level. -/
theorem samplerFrame : Obligations.SamplerFrame := by
  unfold Obligations.SamplerFrame
  refine fun d s t => ⟨fun h => ?_, fun h => ?_⟩
  · obtain ⟨hc, i, hi, rfl⟩ := exec_clkSample_next.1 h
    obtain ⟨rfl, -⟩ := slotIndex?_eq_some.1 hi
    refine ⟨⟨rfl, rfl, rfl⟩, ⟨rfl, rfl⟩, ⟨rfl, rfl, rfl⟩, rfl, rfl, rfl, ?length, ?slots, ?bits, fun hd => if_neg ?low⟩
    case length => cases d <;> simp
    case slots =>
      intro i hi' j hj
      obtain ⟨rfl, -⟩ := slotIndex?_eq_some.1 hi'
      cases d with
      | low => rfl
      | high => exact addBit_other _ _ _ hj
    case bits =>
      intro i hi' k hk hne hw hfit hzero hptr
      obtain ⟨rfl, -⟩ := slotIndex?_eq_some.1 hi'
      cases d with
      | low => rfl
      | high => exact addBit_pointer_bit_other hw hfit hzero hptr hc hk hne
    case low => rw [hd]; decide
  · obtain ⟨-, rfl⟩ := exec_clkOverrun_next.1 h
    exact ⟨⟨rfl, rfl, rfl⟩, ⟨rfl, rfl⟩, ⟨rfl, rfl, rfl⟩, rfl, rfl, rfl, rfl, rfl, rfl⟩

/-- Settles O19: the two rows of an edge have no premise about the Scheduler's items and write none of them. -/
theorem samplerIgnoresTheScheduler : Obligations.SamplerIgnoresTheScheduler := by
  unfold Obligations.SamplerIgnoresTheScheduler
  intro d s t a e r h
  cases reaction_of_react h with
  | sample _ hc hb => exact reaction_iff.1 (.sample (s := { s with acq := a, elapsed := e, req := r }) d hc hb)
  | overrun _ hc => exact reaction_iff.1 (.overrun (s := { s with acq := a, elapsed := e, req := r }) d hc)

/-- Settles O22: the only rows that write these items are `RST`, `TICK.RS`, and a sample, which needs an incomplete
frame. -/
theorem completeFrameIsFrozen : Obligations.CompleteFrameIsFrozen := by
  unfold Obligations.CompleteFrameIsFrozen
  intro e s t hc h hrst htick
  cases reaction_of_react h with
  | reset => exact absurd rfl hrst
  | request ha => exact absurd ha (htick rfl)
  | sample _ hc' => exact absurd hc hc'
  | overrun | hold | expire | done | timeout | wait => exact ⟨rfl, rfl, rfl, rfl⟩

/-- Settles O23: within a cycle only `satInc` writes the count. -/
theorem overrunCountNeverFallsWithinACycle : Obligations.OverrunCountNeverFallsWithinACycle := by
  unfold Obligations.OverrunCountNeverFallsWithinACycle
  intro e s t h hrst htick
  cases reaction_of_react h with
  | reset => exact absurd rfl hrst
  | request ha => exact absurd ha (htick rfl)
  | overrun => exact ⟨le_satInc _ _, fun hfit _ => satInc_lt hfit⟩
  | sample | hold | expire | done | timeout | wait => exact ⟨le_refl _, fun hfit _ => hfit⟩

/-! ### Runs of edges -/

theorem reactAll_cons {e : Event} {es : List Event} {s t : State} (h : react e s = .next t) :
    reactAll (e :: es) s = reactAll es t := by
  simp only [reactAll, h]

/-- Edges are packed in the order of arrival, whatever was received before (R104), and do nothing else. -/
theorem reactAll_edges {levels ds : List Level} {s : State} (hw : s.params.wf = true) (hs : Packed ds s) :
    ∃ t, reactAll (levels.map Event.clkFall) s = .next t ∧ Packed (ds ++ levels) t ∧ sameScheduler s t ∧
      t.sink = s.sink ∧ sameSurroundings s t ∧ t.ticks = s.ticks := by
  induction levels generalizing ds s with
  | nil => exact ⟨s, rfl, by rwa [List.append_nil], ⟨rfl, rfl, rfl⟩, rfl, ⟨rfl, rfl, rfl⟩, rfl⟩
  | cons d levels ih =>
    obtain ⟨u, hu⟩ := hs.react_answers hw (.clkFall d)
    obtain ⟨⟨ha, he, hr⟩, ⟨-, hsink⟩, hticks⟩ := react_clkFall_frame hu
    obtain ⟨hp, hstim, hdraws⟩ := react_surroundings hu
    obtain ⟨t, ht, hpacked, ⟨ha', he', hr'⟩, hsink', ⟨hp', hstim', hdraws'⟩, hticks'⟩ :=
      ih (hp ▸ hw) (packed_history hw hs hu)
    refine ⟨t, (reactAll_cons hu).trans ht, ?_, ⟨ha'.trans ha, he'.trans he, hr'.trans hr⟩, hsink'.trans hsink,
      ⟨hp'.trans hp, hstim'.trans hstim, hdraws'.trans hdraws⟩, hticks'.trans hticks⟩
    rwa [history, List.append_assoc] at hpacked

/-- Settles O20: `reactAll_edges`. -/
theorem edgesArePackedInOrder : Obligations.EdgesArePackedInOrder := by
  unfold Obligations.EdgesArePackedInOrder
  intro levels ds s hw hs
  obtain ⟨t, ht, hpacked, hsched, hsink, ⟨hp, -⟩, -⟩ := reactAll_edges (levels := levels) hw hs
  exact ⟨t, ht, hpacked, hsched, hsink, hp⟩

/-- Settles O24: the levels received are the extra ones followed by the frame's, and the packing law says where each
stands. -/
theorem leadingEdgesShiftTheFrame : Obligations.LeadingEdgesShiftTheFrame := by
  unfold Obligations.LeadingEdgesShiftTheFrame
  intro extra b s hw hs hextra
  obtain ⟨t, ht, hpacked, -, -, ⟨hp, -⟩, -⟩ := reactAll_edges (levels := extra ++ frameLevels s.params b) hw hs
  rw [List.nil_append] at hpacked
  have hlen : (extra ++ frameLevels s.params b).length = extra.length + s.params.nBits := by
    rw [List.length_append, length_frameLevels]
  have hclocks := hpacked.clocks
  have hoverruns := hpacked.overruns
  rw [hlen, hp] at hclocks hoverruns
  refine ⟨t, ?_, by omega, by rw [hoverruns, Nat.add_sub_cancel], fun k hk => ?_⟩
  · rwa [List.map_append] at ht
  · have hbit := hpacked.bits k (hp ▸ hk)
    rw [hp] at hbit
    refine ⟨fun hlt => ?_, fun j hj => ?_⟩
    · rw [hbit, List.getD_append _ _ _ _ hlt]
    · rw [hbit, List.getD_append_right _ _ _ _ (by omega), hj, Nat.add_sub_cancel_left, getD_frameLevels (by omega)]

end Sys2Proof.Machine
end

section
/-! PROOF. The Acquisition Scheduler's operations one by one, and `RST` (41_scheduler.md R122 to R127;
70_reset_and_hazards.md R200). -/

namespace Sys2Proof.Machine

/-- Settles O1: the items are written out in `State.reset`. -/
theorem resetState : Obligations.ResetState := by
  unfold Obligations.ResetState
  exact ⟨rfl, rfl, rfl, rfl, rfl, rfl, rfl, rfl⟩

/-- Settles O3: `RST` has no guard and writes every item. -/
theorem rstResult : Obligations.RstResult := by
  unfold Obligations.RstResult
  exact fun s => ⟨_, rfl, ⟨⟨rfl, rfl, rfl, rfl, rfl⟩, rfl, rfl, rfl⟩, ⟨rfl, rfl⟩, ⟨rfl, rfl, rfl⟩, rfl, rfl⟩

/-- Settles O25: below `IDLE_TICKS` the count does not wrap. -/
theorem tickAwHoldResult : Obligations.TickAwHoldResult := by
  unfold Obligations.TickAwHoldResult
  intro s hw ha he
  have hidle := (params_counts hw).2.2.1
  exact ⟨_, exec_tickAwHold_next.2 ⟨⟨ha, he⟩, rfl⟩, rfl, elapsed_succ _ (by omega)⟩

/-- Settles O26: the last tick of the window. -/
theorem tickAwExpireResult : Obligations.TickAwExpireResult := by
  unfold Obligations.TickAwExpireResult
  exact fun s ha he => exec_tickAwExpire_next.2 ⟨⟨ha, he⟩, rfl⟩

/-- Settles O27: the tick of RequestSent. -/
theorem tickRsResult : Obligations.TickRsResult := by
  unfold Obligations.TickRsResult
  exact fun s ha => exec_tickRs_next.2 ⟨ha, rfl⟩

/-- Settles O28: what `DECODE` returns selects the operation and is what it reports. -/
theorem tickAdDoneResult : Obligations.TickAdDoneResult := by
  unfold Obligations.TickAdDoneResult
  intro s ha hc
  refine ⟨fun m hm => ?_, fun er her => ?_⟩
  · have hd : decodeSucceeds s = true := by rw [decodeSucceeds_eq, hm]; rfl
    rw [exec_tickAdDoneOk_next.2 ⟨⟨ha, hc, hd⟩, rfl⟩, completeFrame, hm]
    rfl
  · have hd : decodeSucceeds s = false := by rw [decodeSucceeds_eq, her]; rfl
    rw [exec_tickAdDoneErr_next.2 ⟨⟨ha, hc, hd⟩, rfl⟩, completeFrame, her]
    rfl

/-- Settles O29: the tick on which the time is up. -/
theorem tickAdTimeoutResult : Obligations.TickAdTimeoutResult := by
  unfold Obligations.TickAdTimeoutResult
  exact fun s ha hc he => exec_tickAdTimeout_next.2 ⟨⟨ha, hc, he⟩, rfl⟩

/-- Settles O30: up to `TIMEOUT_TICKS` the count does not wrap. -/
theorem tickAdWaitResult : Obligations.TickAdWaitResult := by
  unfold Obligations.TickAdWaitResult
  intro s hw ha hc he
  have htime := (params_counts hw).2.2.2
  exact ⟨_, exec_tickAdWait_next.2 ⟨⟨ha, hc, he⟩, rfl⟩, rfl, elapsed_succ _ (by omega)⟩

/-- Settles O33: the seven operations, each by what it does where it answers. -/
theorem schedulerFrame : Obligations.SchedulerFrame := by
  unfold Obligations.SchedulerFrame
  intro i s t hi h
  cases i with
  | frameValid | frameInvalid | decode | rst | clkSample | clkOverrun => cases hi
  | tickAwHold =>
    obtain ⟨-, rfl⟩ := exec_tickAwHold_next.1 h
    simp [sameSurroundings, sameSampler, nothingReported]
  | tickAwExpire =>
    obtain ⟨-, rfl⟩ := exec_tickAwExpire_next.1 h
    simp [sameSurroundings, sameSampler, nothingReported]
  | tickRs =>
    obtain ⟨-, rfl⟩ := exec_tickRs_next.1 h
    simp [sameSurroundings, sameSampler, nothingReported]
  | tickAdDoneOk =>
    obtain ⟨-, rfl⟩ := exec_tickAdDoneOk_next.1 h
    simp [sameSurroundings, sameSampler, nothingReported]
  | tickAdDoneErr =>
    obtain ⟨-, rfl⟩ := exec_tickAdDoneErr_next.1 h
    simp [sameSurroundings, sameSampler, nothingReported]
  | tickAdTimeout =>
    obtain ⟨-, rfl⟩ := exec_tickAdTimeout_next.1 h
    simp [sameSurroundings, sameSampler, nothingReported]
  | tickAdWait =>
    obtain ⟨-, rfl⟩ := exec_tickAdWait_next.1 h
    simp [sameSurroundings, sameSampler, nothingReported]

/-- Settles O43: the tick of RequestSent writes seven items with fixed values and keeps `elapsed`. -/
theorem requestErasesThePreviousCycle : Obligations.RequestErasesThePreviousCycle := by
  unfold Obligations.RequestErasesThePreviousCycle
  intro s₁ s₂ hn ha₁ ha₂ he
  exact ⟨_, _, react_request ha₁, react_request ha₂,
    ⟨congrArg clearedBuffer hn.symm, rfl, rfl, rfl, rfl⟩, rfl, he.symm, rfl⟩

end Sys2Proof.Machine
end

section
/-! PROOF. The transition table, its reports and its request line (41_scheduler.md sections 6 and 7; 60_exceptions.md
sections 1 and 4). -/

namespace Sys2Proof.Machine

/-- Settles O35: one row of the relation for each row of the table. -/
theorem transitionsFollowTheTable : Obligations.TransitionsFollowTheTable := by
  unfold Obligations.TransitionsFollowTheTable
  intro e s t hw h
  obtain ⟨-, -, hidle, htime⟩ := params_counts hw
  cases reaction_of_react h with
  | reset => exact .inl ⟨rfl, rfl, rfl, rfl, rfl⟩
  | hold ha he => exact .inr (.inl ⟨rfl, ha, he, ha, elapsed_succ _ (by omega), rfl, rfl⟩)
  | expire ha he => exact .inr (.inr (.inl ⟨rfl, ha, he, rfl, rfl, rfl, rfl⟩))
  | request ha => exact .inr (.inr (.inr (.inl ⟨rfl, ha, rfl, rfl, rfl, rfl⟩)))
  | done ha hc => exact .inr (.inr (.inr (.inr (.inl ⟨rfl, ha, hc, rfl, rfl, rfl, rfl⟩))))
  | timeout ha hc he => exact .inr (.inr (.inr (.inr (.inr (.inl ⟨rfl, ha, hc, he, rfl, rfl, rfl, rfl⟩)))))
  | wait ha hc he =>
    exact .inr (.inr (.inr (.inr (.inr (.inr (.inl
      ⟨rfl, ha, hc, he, ha, elapsed_succ _ (by omega), rfl, rfl⟩))))))
  | sample d | overrun d =>
    exact .inr (.inr (.inr (.inr (.inr (.inr (.inr ⟨⟨d, rfl⟩, rfl, rfl, rfl, rfl⟩))))))

/-! ### Reports -/

/-- Where a report comes from: a completed frame or the end of the time (R171 to R173). -/
theorem react_rpt_cases {e : Event} {s t : State} {r : Report} (h : react e s = .next t) (hr : t.rpt = some r) :
    (e = .tick ∧ s.acq = .awaitingData ∧ t.acq = .awaitingWindow) ∧
      ((s.clocks = s.params.nBits ∧ r = (decodeFrame s.params s.buf s.overrunCount).toReport) ∨
        (s.clocks ≠ s.params.nBits ∧ s.params.timeoutTicks < s.elapsed.toNat + 1 ∧ r = .nodata)) := by
  cases reaction_of_react h with
  | done ha hc => exact ⟨⟨rfl, ha, rfl⟩, .inl ⟨hc, (Option.some.inj hr).symm⟩⟩
  | timeout ha hc he => exact ⟨⟨rfl, ha, rfl⟩, .inr ⟨hc, he, (Option.some.inj hr).symm⟩⟩
  | reset | sample | overrun | hold | expire | request | wait => cases hr

/-- A tick that ends a request cycle reports. -/
theorem react_rpt_of_end {s t : State} (h : react .tick s = .next t) (ha : s.acq = .awaitingData)
    (ht : t.acq = .awaitingWindow) : t.rpt ≠ none := by
  cases reaction_of_react h with
  | done | timeout => exact nofun
  | wait => exact absurd (ha.symm.trans ht) (by decide)
  | hold ha' | expire ha' | request ha' => exact absurd (ha.symm.trans ha') (by decide)

/-- Reports made and owed grow by the request that is made, if any (R133). -/
theorem react_balance {e : Event} {s t : State} (h : react e s = .next t) (hrst : e ≠ .rst) :
    t.sink.length + owed t = s.sink.length + owed s + (if e = .tick ∧ s.acq = .requestSent then 1 else 0) := by
  cases reaction_of_react h with
  | reset => exact absurd rfl hrst
  | sample | overrun => simp only [reduceCtorEq, false_and, if_false]; rfl
  | hold ha | expire ha | request ha | done ha | timeout ha | wait ha => simp [owed, ha]

/-- Settles O36: `react_rpt_cases` and its converse, `react_sink`, and the balance. -/
theorem oneReportPerRequestCycle : Obligations.OneReportPerRequestCycle := by
  unfold Obligations.OneReportPerRequestCycle
  intro e s t h
  have hsink := react_sink h
  refine ⟨⟨fun hne => ?_, ?_⟩, fun hnone => ?_, fun r hr => ?_, react_balance h⟩
  · obtain ⟨r, hr⟩ := Option.ne_none_iff_exists'.1 hne
    exact (react_rpt_cases h hr).1
  · rintro ⟨rfl, ha, ht⟩
    exact react_rpt_of_end h ha ht
  · rw [hsink, hnone]
    exact List.append_nil _
  · rw [hsink, hr]
    rfl

/-- A trace that completes takes its first event and goes on. -/
theorem reactAll_cons_next {e : Event} {es : List Event} {s t : State} (h : reactAll (e :: es) s = .next t) :
    ∃ u, react e s = .next u ∧ reactAll es u = .next t := by
  simp only [reactAll] at h
  split at h
  next u hu => exact ⟨u, hu, h⟩
  · cases h
  · cases h

theorem requestsIn_cons {e : Event} {es : List Event} {s u : State} (h : react e s = .next u) :
    requestsIn (e :: es) s = (if e = .tick ∧ s.acq = .requestSent then 1 else 0) + requestsIn es u := by
  simp only [requestsIn, h]

/-- Settles O37: the balance of one reaction, by induction on the trace. -/
theorem reportsMatchRequestsOverTraces : Obligations.ReportsMatchRequestsOverTraces := by
  unfold Obligations.ReportsMatchRequestsOverTraces
  intro es
  induction es with
  | nil => intro s t _ h; cases h; rfl
  | cons e es ih =>
    intro s t hrst h
    obtain ⟨u, hu, hrest⟩ := reactAll_cons_next h
    have hone := react_balance hu (hrst e List.mem_cons_self)
    have hothers := ih u t (fun x hx => hrst x (List.mem_cons_of_mem e hx)) hrest
    rw [requestsIn_cons hu]
    omega

/-- A report that carries a Decode Error is one that `DECODE` returned. -/
theorem toReport_eq_ierr {r : DecodeResult} {er : DecodeError} (h : Report.ierr er = r.toReport) : r = .ierr er := by
  cases r <;> cases h; rfl

/-- A report that carries a Measurement Result is one that `DECODE` returned. -/
theorem toReport_eq_meas {r : DecodeResult} {m : Measurement} (h : Report.meas m = r.toReport) : r = .meas m := by
  cases r <;> cases h; rfl

/-- Settles O38: `react_rpt_cases` with what `DECODE` returns in a completed frame. -/
theorem eachReportHasItsCause : Obligations.EachReportHasItsCause := by
  unfold Obligations.EachReportHasItsCause
  intro e s t hw h
  refine ⟨⟨fun hr => ?nodata, ?time⟩, fun er hr => ?ierr, fun m hr => ?meas, ?edge⟩
  case nodata =>
    obtain ⟨⟨he, ha, -⟩, ⟨-, hd⟩ | ⟨hc, htime, -⟩⟩ := react_rpt_cases h hr
    · exact absurd hd.symm (toReport_ne_nodata _)
    · exact ⟨he, ha, hc, htime⟩
  case time =>
    rintro ⟨rfl, ha, hc, htime⟩
    obtain rfl := Host.Outcome.next.inj ((react_timeout ha hc htime).symm.trans h)
    rfl
  case ierr =>
    obtain ⟨⟨he, ha, -⟩, ⟨hc, hd⟩ | ⟨-, -, hd⟩⟩ := react_rpt_cases h hr
    · have hd' := toReport_eq_ierr hd
      obtain ⟨herr, hwhy⟩ | ⟨hmeas, -⟩ := decodeFrame_cases s.params s.buf s.overrunCount
      · cases herr.symm.trans hd'
        exact ⟨he, ha, hc, rfl, rfl, hwhy.imp_right fun hs => ⟨hs.1, (hasNonDecimalDigit_iff hw _).1 hs.2⟩⟩
      · cases hmeas.symm.trans hd'
    · cases hd
  case meas =>
    obtain ⟨⟨he, ha, -⟩, ⟨hc, hd⟩ | ⟨-, -, hd⟩⟩ := react_rpt_cases h hr
    · have hd' := toReport_eq_meas hd
      obtain ⟨herr, -⟩ | ⟨-, hdp, -⟩ := decodeFrame_cases s.params s.buf s.overrunCount
      · cases herr.symm.trans hd'
      · exact ⟨he, ha, hc, hdp⟩
    · cases hd
  case edge =>
    rintro d rfl
    obtain ⟨⟨ha, -, hreq⟩, ⟨hrpt, hsink⟩, -⟩ := react_clkFall_frame h
    exact ⟨hrpt, hsink, ha, hreq⟩

/-- Settles O39: the rows that write the request line. -/
theorem requestLineMovesOnlyWhereTheTableSays : Obligations.RequestLineMovesOnlyWhereTheTableSays := by
  unfold Obligations.RequestLineMovesOnlyWhereTheTableSays
  intro e s t h hne
  cases reaction_of_react h with
  | reset => exact .inr ⟨rfl, .inl rfl⟩
  | hold ha | expire ha => exact .inr ⟨rfl, .inr (.inl ⟨rfl, ha⟩)⟩
  | request ha => exact .inl ⟨rfl, rfl, ha⟩
  | done ha hc => exact .inr ⟨rfl, .inr (.inr ⟨rfl, ha, hc⟩)⟩
  | sample | overrun | timeout | wait => exact absurd rfl hne

end Sys2Proof.Machine
end

section
/-! PROOF. How long the Scheduler stays in a state (41_scheduler.md sections 3, 5 and 7; 70_reset_and_hazards.md
H12). -/

namespace Sys2Proof.Machine

/-- One more tick at the end of a run of ticks. -/
theorem reactAll_ticks_succ {n : Nat} {s t u : State} (h : reactAll (List.replicate n .tick) s = .next t)
    (hu : react .tick t = .next u) : reactAll (List.replicate (n + 1) .tick) s = .next u := by
  rw [List.replicate_succ']
  exact reactAll_snoc h hu

/-- Ticks in the idle window are counted one by one (R122). -/
theorem reactAll_hold {s : State} (hw : s.params.wf = true) (ha : s.acq = .awaitingWindow) (he : s.elapsed = 0)
    {n : Nat} (hn : n < s.params.idleTicks) :
    ∃ t, reactAll (List.replicate n .tick) s = .next t ∧ t.acq = .awaitingWindow ∧ t.elapsed.toNat = n ∧
      t.sink = s.sink ∧ sameSampler s t ∧ t.params = s.params := by
  induction n with
  | zero => exact ⟨s, rfl, ha, by rw [he]; rfl, rfl, ⟨rfl, rfl, rfl, rfl, rfl⟩, rfl⟩
  | succ n ih =>
    obtain ⟨t, ht, hta, hte, hsink, hsame, hp⟩ := ih (by omega)
    have hidle := (params_counts hw).2.2.1
    have hhold := react_hold hta (by rw [hte, hp]; exact hn)
    refine ⟨_, reactAll_ticks_succ ht hhold, hta, ?_, hsink, hsame, hp⟩
    exact (elapsed_succ _ (by omega)).trans (by rw [hte])

/-- Settles O40: all but the last tick hold, the last expires. -/
theorem idleWindowLastsIdleTicks : Obligations.IdleWindowLastsIdleTicks := by
  unfold Obligations.IdleWindowLastsIdleTicks
  intro s hw ha he
  refine ⟨fun n hn => ?_, ?_⟩
  · obtain ⟨t, ht, hta, hte, hsink, hsame, -⟩ := reactAll_hold hw ha he hn
    exact ⟨t, ht, hta, hte, hsink, hsame⟩
  · obtain ⟨n, hn⟩ := Nat.exists_eq_add_of_le' (params_counts hw).2.1
    obtain ⟨t, ht, hta, hte, hsink, hsame, hp⟩ := reactAll_hold hw ha he (n := n) (by omega)
    have hrun := reactAll_ticks_succ ht (react_expire hta (by rw [hte, hp, hn]))
    rw [← hn] at hrun
    exact ⟨_, hrun, rfl, rfl, rfl, hsink, hsame⟩

/-- Ticks that find no complete frame are counted one by one while there is time (R127). -/
theorem reactAll_wait {s : State} (hw : s.params.wf = true) (ha : s.acq = .awaitingData) (he : s.elapsed = 0)
    (hc : s.clocks ≠ s.params.nBits) {n : Nat} (hn : n ≤ s.params.timeoutTicks) :
    ∃ t, reactAll (List.replicate n .tick) s = .next t ∧ t.acq = .awaitingData ∧ t.elapsed.toNat = n ∧
      t.sink = s.sink ∧ sameSampler s t ∧ t.params = s.params ∧ t.req = s.req ∧ t.ticks = s.ticks + n := by
  induction n with
  | zero => exact ⟨s, rfl, ha, by rw [he]; rfl, rfl, ⟨rfl, rfl, rfl, rfl, rfl⟩, rfl, rfl, rfl⟩
  | succ n ih =>
    obtain ⟨t, ht, hta, hte, hsink, hsame, hp, hreq, hticks⟩ := ih (by omega)
    have htime := (params_counts hw).2.2.2
    have hwait := react_wait hta (by rw [hsame.2.1, hp]; exact hc) (by rw [hte, hp]; exact hn)
    refine ⟨_, reactAll_ticks_succ ht hwait, hta, ?_, hsink, hsame, hp, hreq, ?_⟩
    · exact (elapsed_succ _ (by omega)).trans (by rw [hte])
    · exact congrArg (· + 1) hticks

/-- Settles O41: `TIMEOUT_TICKS` ticks wait, the next one reports `NODATA`. -/
theorem silentCaliperTimesOut : Obligations.SilentCaliperTimesOut := by
  unfold Obligations.SilentCaliperTimesOut
  intro s hw ha he hc
  refine ⟨fun n hn => ?_, ?_⟩
  · obtain ⟨t, ht, hta, hte, hsink, -⟩ := reactAll_wait hw ha he hc hn
    exact ⟨t, ht, hta, hte, hsink⟩
  · obtain ⟨t, ht, hta, hte, hsink, hsame, hp, hreq, hticks⟩ := reactAll_wait hw ha he hc (le_refl _)
    have htimeout := react_timeout hta (by rw [hsame.2.1, hp]; exact hc) (by rw [hte, hp]; exact Nat.lt_succ_self _)
    refine ⟨_, reactAll_ticks_succ ht htimeout, rfl, rfl, ?_, hreq, hsame⟩
    rw [endCycle_sink, beginTick_sink, beginTick_ticks, hsink, hticks]

/-- From a state that meets the invariants every trace completes, and no report is taken back. -/
theorem reactAll_answers {s : State} (hs : BlockInvariant s) (es : List Event) :
    ∃ t, reactAll es s = .next t ∧ s.sink.length ≤ t.sink.length := by
  induction es generalizing s with
  | nil => exact ⟨s, rfl, le_refl _⟩
  | cons e es ih =>
    obtain ⟨u, hu⟩ := hs.react_answers e
    obtain ⟨t, ht, hle⟩ := ih (react_blockInvariant hs hu)
    rw [react_sink hu, List.length_append] at hle
    exact ⟨t, (reactAll_cons hu).trans ht, by omega⟩

/-- A tick of AwaitingData reports or counts. -/
theorem react_tick_awaitingData {s t : State} (hw : s.params.wf = true) (ha : s.acq = .awaitingData)
    (h : react .tick s = .next t) :
    t.sink.length = s.sink.length + 1 ∨
      (t.acq = .awaitingData ∧ t.elapsed.toNat = s.elapsed.toNat + 1 ∧ t.sink = s.sink) := by
  have htime := (params_counts hw).2.2.2
  cases reaction_of_react h with
  | done | timeout => exact .inl List.length_append
  | wait _ _ he => exact .inr ⟨ha, elapsed_succ _ (by omega), rfl⟩
  | hold ha' | expire ha' | request ha' => exact absurd (ha.symm.trans ha') (by decide)

/-- Settles O42: each tick brings `elapsed` one nearer to `TIMEOUT_TICKS`, which it cannot pass, and an edge leaves it
alone. -/
theorem everyRequestIsReportedInTime : Obligations.EveryRequestIsReportedInTime := by
  unfold Obligations.EveryRequestIsReportedInTime
  intro es
  induction es with
  | nil =>
    intro s hs ha _ hticks
    have hbound := hs.elapsed.2.2 ha
    rw [List.count_nil] at hticks
    omega
  | cons e es ih =>
    intro s hs ha hrst hticks
    have hrst' : ∀ x ∈ es, x ≠ .rst := fun x hx => hrst x (List.mem_cons_of_mem e hx)
    obtain ⟨u, hu⟩ := hs.react_answers e
    have hsu := react_blockInvariant hs hu
    have hp := react_params hu
    rw [reactAll_cons hu]
    cases e with
    | rst => exact absurd rfl (hrst _ List.mem_cons_self)
    | clkFall d =>
      obtain ⟨⟨hua, hue, -⟩, ⟨-, hsink⟩, -⟩ := react_clkFall_frame hu
      have hne : Event.clkFall d ≠ .tick := nofun
      rw [List.count_cons_of_ne hne] at hticks
      obtain ⟨t, ht, hlt⟩ := ih u hsu (hua.trans ha) hrst' (by rw [hp, hue]; exact hticks)
      exact ⟨t, ht, hsink ▸ hlt⟩
    | tick =>
      rw [List.count_cons_self] at hticks
      obtain hreport | ⟨hua, hue, hsink⟩ := react_tick_awaitingData hs.params ha hu
      · obtain ⟨t, ht, hle⟩ := reactAll_answers hsu es
        exact ⟨t, ht, by omega⟩
      · obtain ⟨t, ht, hlt⟩ := ih u hsu hua hrst' (by rw [hp, hue]; omega)
        exact ⟨t, ht, hsink ▸ hlt⟩

end Sys2Proof.Machine
end

section
/-! PROOF. The Frame Decoder as a function of its buffer (42_decoder.md R150 to R160; 30_encoding.md section 2). -/

namespace Sys2Proof.Machine

/-! ### What `DECODE` returns -/

/-- `DECODE` returns a Measurement Result exactly where gate and strict check pass, and then the assembled one. -/
theorem decodeFrame_eq_meas_iff {p : Config.Params} {b : FrameBuffer} {o : Nat} {m : Measurement} :
    decodeFrame p b o = .meas m ↔
      readSlot b p.layout.idxDp = p.layout.dpLiteral ∧
      (p.strictDigits = true → hasNonDecimalDigit p.layout b = false) ∧
      m = ⟨signOf p.layout (readSlot b p.layout.idxSign), digitsOf p.layout b, p.layout.dpLiteral.setWidth 3,
        unitOf (readSlot b p.layout.idxUnit)⟩ := by
  obtain ⟨herr, hwhy⟩ | ⟨hmeas, hdp, hdigits⟩ := decodeFrame_cases p b o
  · rw [herr]
    refine ⟨nofun, fun ⟨hdp, hdigits, _⟩ => ?_⟩
    obtain hne | ⟨hon, hex⟩ := hwhy
    · exact absurd hdp hne
    · exact absurd ((hdigits hon).symm.trans hex) (by decide)
  · rw [hmeas, DecodeResult.meas.injEq]
    exact ⟨fun h => ⟨hdp, hdigits, h.symm⟩, fun h => h.2.2.symm⟩

/-- `DECODE` fails exactly where gate or strict check does, and then returns its arguments. -/
theorem decodeFrame_of_rejected {p : Config.Params} {b : FrameBuffer}
    (h : readSlot b p.layout.idxDp ≠ p.layout.dpLiteral ∨
      (p.strictDigits = true ∧ hasNonDecimalDigit p.layout b = true)) (o : Nat) : decodeFrame p b o = .ierr ⟨b, o⟩ := by
  obtain ⟨herr, -⟩ | ⟨-, hdp, hdigits⟩ := decodeFrame_cases p b o
  · exact herr
  · obtain hne | ⟨hon, hex⟩ := h
    · exact absurd hdp hne
    · exact absurd ((hdigits hon).symm.trans hex) (by decide)

/-- A literal of at most 6 fits the `dp` field (R84). -/
theorem toNat_setWidth_dp {n : Nibble} (h : n.toNat ≤ 6) : (n.setWidth 3).toNat = n.toNat := by
  rw [BitVec.toNat_setWidth]
  exact Nat.mod_eq_of_lt (by omega)

/-- Settles O47: the call shows what `DECODE` returns, and the two frame rows call it with the same buffer. -/
theorem decodeResultOfAnyFrame : Obligations.DecodeResultOfAnyFrame := by
  unfold Obligations.DecodeResultOfAnyFrame
  rintro x p s l b hw rfl rfl
  refine ⟨_, exec_decode x p s, rfl, fun hfail => ?_, fun ⟨hdp, hdigits⟩ => ?_, ?_, fun _ => rfl⟩
  · rw [← hasNonDecimalDigit_iff hw] at hfail
    exact congrArg some (decodeFrame_of_rejected hfail _)
  · rw [← not_hasNonDecimalDigit_iff hw] at hdigits
    refine ⟨_, congrArg some (decodeFrame_eq_meas_iff.2 ⟨hdp, hdigits, rfl⟩), ?_,
      toNat_setWidth_dp (params_layout hw).2.2.2.2.2, rfl, rfl⟩
    rintro j i rfl
    exact digitsOf_get _ _ j
  · rintro rfl
    rfl

/-- A sign nibble that is neither 0 nor `SIGN_NEG` has the free sign (R79). -/
theorem signOf_other {l : Config.Layout} {n : Nibble} (h0 : n ≠ 0) (hneg : n ≠ l.signNeg) :
    signOf l n = Config.signOther n := by
  rw [signOf, if_neg h0, if_neg hneg]

/-- Settles O45: the frame is measured, and its sign is the free value. -/
theorem undefinedSignIsTheFreeValue : Obligations.UndefinedSignIsTheFreeValue := by
  unfold Obligations.UndefinedSignIsTheFreeValue
  intro x s hlayout hstrict h0 h8
  exact ⟨_, _, exec_frameValid x s, congrArg some (decodeFrame_source_buffer hlayout hstrict x s.overrunCount),
    signOf_other h0 h8⟩

/-- Settles O48: each of the three is a call, which writes no item and no surroundings. -/
theorem decoderFrame : Obligations.DecoderFrame := by
  unfold Obligations.DecoderFrame
  intro i s t hi h
  obtain ⟨b, rfl⟩ := exec_function_next hi h
  exact ⟨sameBlock_callDecoder b s, ⟨rfl, rfl⟩, ⟨rfl, rfl, rfl⟩, rfl⟩

/-! ### What it does not look at -/

/-- Buffers that agree in the digit slots have the same digits. -/
theorem digitsOf_congr {p : Config.Params} (hw : p.wf = true) {b b' : FrameBuffer}
    (h : ∀ i, p.layout.idxDigFirst ≤ i → i ≤ p.layout.idxDigLast → readSlot b i = readSlot b' i) :
    digitsOf p.layout b = digitsOf p.layout b' := by
  have hlast := (params_layout hw).2.2.2.2.1
  have hslot : ∀ j, readSlot b (digitSlot p.layout j) = readSlot b' (digitSlot p.layout j) := fun j =>
    h _ (Nat.le_add_right _ _) (by have := j.isLt; rw [digitSlot]; omega)
  rw [digitsOf, digitsOf, funext hslot]

/-- The slots of the layout's fields are all that a Measurement Result depends on. -/
theorem decodeFrame_meas_congr {p : Config.Params} (hw : p.wf = true) {b b' : FrameBuffer}
    (h : ∀ i : Nat, (i = p.layout.idxSign ∨ i = p.layout.idxDp ∨ i = p.layout.idxUnit ∨
      (p.layout.idxDigFirst ≤ i ∧ i ≤ p.layout.idxDigLast)) → readSlot b i = readSlot b' i) (o o' : Nat)
    (m : Measurement) : decodeFrame p b o = .meas m ↔ decodeFrame p b' o' = .meas m := by
  have hdigits : digitsOf p.layout b = digitsOf p.layout b' :=
    digitsOf_congr hw fun i h1 h2 => h i (.inr (.inr (.inr ⟨h1, h2⟩)))
  rw [decodeFrame_eq_meas_iff, decodeFrame_eq_meas_iff, hasNonDecimalDigit, hasNonDecimalDigit, hdigits,
    h _ (.inl rfl), h _ (.inr (.inl rfl)), h _ (.inr (.inr (.inl rfl)))]

/-- Settles O49: `decodeFrame_meas_congr`; at the source's layout every field stands in a slot from 4 on. -/
theorem measurementIgnoresHeaderAndCount : Obligations.MeasurementIgnoresHeaderAndCount := by
  unfold Obligations.MeasurementIgnoresHeaderAndCount
  refine fun p b b' o o' hw => ⟨fun h m => decodeFrame_meas_congr hw h o o' m, fun hl h m => ?_⟩
  refine decodeFrame_meas_congr hw (fun i hi => h i ?_) o o' m
  rw [hl] at hi
  obtain rfl | rfl | rfl | ⟨hfirst, -⟩ := hi
  · decide
  · decide
  · decide
  · exact Nat.le_of_succ_le hfirst

/-- With the strict option off the verdict is the gate's. -/
theorem isMeas_iff {p : Config.Params} (hoff : p.strictDigits = false) (b : FrameBuffer) (o : Nat) :
    (decodeFrame p b o).isMeas = true ↔ readSlot b p.layout.idxDp = p.layout.dpLiteral := by
  by_cases hdp : readSlot b p.layout.idxDp = p.layout.dpLiteral
  · rw [decodeFrame_of_dp_eq hdp hoff]
    exact ⟨fun _ => hdp, fun _ => rfl⟩
  · rw [decodeFrame_of_dp_ne hdp]
    exact ⟨nofun, fun h => absurd h hdp⟩

/-- Settles O50: mask and match read the nibble of slot 11, which is the gate's. -/
theorem validFrameSelector : Obligations.ValidFrameSelector := by
  unfold Obligations.ValidFrameSelector
  intro p b o hidx hlit hoff
  have hdp : dpOfWord (frameWord b) = readSlot b 11 := extractLsb'_frameWord b (i := 11) (by decide)
  rw [isMeas_iff hoff, validSelector_iff, hdp, hidx, hlit]

/-! ### The reading -/

/-- Six decimal digits make a number below 10^6, and the number determines them. -/
theorem digitsValue_decimal {d d' : Vector Nibble 6} (h : ∀ n ∈ d.toList, n.toNat ≤ 9)
    (h' : ∀ n ∈ d'.toList, n.toNat ≤ 9) :
    digitsValue d < 10 ^ 6 ∧ (digitsValue d = digitsValue d' → d = d') := by
  have hdigit : ∀ (i : Nat) (hi : i < 6), d[i].toNat ≤ 9 ∧ d'[i].toNat ≤ 9 := fun i hi =>
    ⟨h _ (by simp), h' _ (by simp)⟩
  have h0 := hdigit 0 (by decide)
  have h1 := hdigit 1 (by decide)
  have h2 := hdigit 2 (by decide)
  have h3 := hdigit 3 (by decide)
  have h4 := hdigit 4 (by decide)
  have h5 := hdigit 5 (by decide)
  refine ⟨by unfold digitsValue; omega, fun heq => ?_⟩
  unfold digitsValue at heq
  have hall : d[0].toNat = d'[0].toNat ∧ d[1].toNat = d'[1].toNat ∧ d[2].toNat = d'[2].toNat ∧
      d[3].toNat = d'[3].toNat ∧ d[4].toNat = d'[4].toNat ∧ d[5].toNat = d'[5].toNat := by omega
  obtain ⟨e0, e1, e2, e3, e4, e5⟩ := hall
  refine Vector.ext fun i hi => BitVec.eq_of_toNat_eq ?_
  interval_cases i <;> assumption

/-- The magnitude of a reading is the number its digits make. -/
theorem natAbs_scaledValue (m : Measurement) : m.scaledValue.natAbs = digitsValue m.digits := by
  unfold Measurement.scaledValue
  split
  · exact Int.natAbs_natCast _
  · rw [Int.natAbs_neg]; exact Int.natAbs_natCast _

/-- Settles O52: equal readings have equal magnitudes, which determine the digits. -/
theorem decimalReadingDeterminesDigits : Obligations.DecimalReadingDeterminesDigits := by
  unfold Obligations.DecimalReadingDeterminesDigits
  intro m m' h h'
  obtain ⟨hlt, hinj⟩ := digitsValue_decimal h h'
  refine ⟨by rw [natAbs_scaledValue]; exact hlt, fun _ hvalue => hinj ?_⟩
  rw [← natAbs_scaledValue, ← natAbs_scaledValue, hvalue]

end Sys2Proof.Machine
end

section
/-! PROOF. Runs of the whole machine over what arrives (20_memory.md section 5; 60_exceptions.md sections 3 and 8;
95_test_vectors.md section 4). -/

namespace Sys2Proof.Machine

/-! ### One arrival -/

/-- Runs from states whose first step is the same are the same. -/
theorem run_congr {s t : State} (h : step s = step t) (n : Nat) :
    Host.Core.run Sys2Proof.core (n + 1) s = Host.Core.run Sys2Proof.core (n + 1) t := by
  rw [run_succ, run_succ, h]

/-- A coincidence is taken as its two events in the free order. -/
theorem step_together_ordered {s : State} {x y : Event} {rest : List Arrival} (h : s.stimulus = .together x y :: rest) :
    step s = step { s with
      stimulus := .event (orderOfPair s.draws x y).1 :: .event (orderOfPair s.draws x y).2 :: rest
      draws := s.draws + 1 } := by
  rw [step_together h, step_event rfl]

/-- Settles O55: the first of the two steps is that of one of the two orders. -/
theorem coincidentEventsTakeOneOfTwoOrders : Obligations.CoincidentEventsTakeOneOfTwoOrders := by
  unfold Obligations.CoincidentEventsTakeOneOfTwoOrders
  intro s x y rest hst
  have hstep := step_together_ordered hst
  obtain horder | horder := orderOfPair_cases s.draws x y
  · rw [horder] at hstep
    exact .inl (run_congr hstep 1)
  · rw [horder] at hstep
    exact .inr (run_congr hstep 1)

/-- What a reaction shows on `RPT` is at most one report. -/
theorem react_sink_le {e : Event} {s t : State} (h : react e s = .next t) :
    ∃ new, t.sink = s.sink ++ new ∧ new.length ≤ 1 :=
  ⟨_, react_sink h, by rw [List.length_map]; exact Option.length_toList_le⟩

/-- Settles O57: each kind of arrival takes what `step_cases` says, and only an event can report. -/
theorem parametersAndReportsStand : Obligations.ParametersAndReportsStand := by
  unfold Obligations.ParametersAndReportsStand
  intro s t h
  rcases step_cases h with ⟨e, rest, hst, hr⟩ | ⟨x, y, rest, hst, hr⟩ | ⟨v, rest, b, hst, rfl⟩ | ⟨hst, rfl⟩
  · obtain ⟨hp, harrive, -⟩ := react_surroundings hr
    have hsink := react_sink_le hr
    exact ⟨hp, hsink, by simp [hst, harrive]⟩
  · obtain ⟨hp, harrive, -⟩ := react_surroundings hr
    have hsink := react_sink_le hr
    exact ⟨hp, hsink, by simp +contextual [hst, harrive]⟩
  · exact ⟨rfl, ⟨[], (List.append_nil _).symm, Nat.zero_le _⟩, by simp [hst]⟩
  · exact ⟨rfl, ⟨[], (List.append_nil _).symm, Nat.zero_le _⟩, by simp [hst]⟩

/-! ### A list of arrivals -/

/-- An outcome with what is still to arrive replaced. -/
def replaceStimulus (l : List Arrival) : Result → Result
  | .next t => .next { t with stimulus := l }
  | .fault r => .fault r
  | .refused r => .refused r

theorem replaceStimulus_whenSelected (l : List Arrival) (c : Bool) (r : Result) :
    replaceStimulus l (whenSelected c r) = whenSelected c (replaceStimulus l r) := by
  cases c <;> rfl

/-- No operation looks at what is still to arrive. -/
theorem exec_stimulus (i : Instr) (s : State) (l : List Arrival) :
    exec i { s with stimulus := l } = replaceStimulus l (exec i s) := by
  cases i with
  | frameValid | frameInvalid | decode | rst => rfl
  | clkSample d =>
    refine Eq.trans ?_ (replaceStimulus_whenSelected l _ _).symm
    refine congrArg (whenSelected _) ?_
    cases hslot : slotIndex? s.params.nNibbles s.bytePos <;> rfl
  | clkOverrun | tickAwHold | tickAwExpire | tickRs | tickAdDoneOk | tickAdDoneErr | tickAdTimeout | tickAdWait =>
    refine Eq.trans ?_ (replaceStimulus_whenSelected l _ _).symm
    rfl

/-- Nor does a reaction. -/
theorem react_stimulus (e : Event) (s : State) (l : List Arrival) :
    react e { s with stimulus := l } = replaceStimulus l (react e s) :=
  exec_stimulus _ s l

/-- A trace stops where its first event does. -/
theorem reactAll_cons_fault {e : Event} {es : List Event} {s : State} {r : Fault} (h : react e s = .fault r) :
    reactAll (e :: es) s = .fault r := by
  simp only [reactAll, h]

theorem reactAll_cons_refused {e : Event} {es : List Event} {s : State} {r : Refusal} (h : react e s = .refused r) :
    reactAll (e :: es) s = .refused r := by
  simp only [reactAll, h]

/-- Settles O56: each step is the reaction to its event, by induction on the events; the first stop stops both. -/
theorem runIsTheSequenceOfReactions : Obligations.RunIsTheSequenceOfReactions := by
  unfold Obligations.RunIsTheSequenceOfReactions
  intro es
  induction es with
  | nil => rintro s rest rfl; rfl
  | cons e es ih =>
    intro s rest hst
    have hstep : step s = replaceStimulus (es.map Arrival.event ++ rest) (react e { s with stimulus := rest }) :=
      (step_event hst).trans (react_stimulus e { s with stimulus := rest } _)
    cases hr : react e { s with stimulus := rest } with
    | next t =>
      rw [hr] at hstep
      have hrest : t.stimulus = rest := (react_surroundings hr).2.1
      rw [reactAll_cons hr, List.length_cons, run_of_next hstep, ih _ rest rfl, ← hrest]
    | fault r =>
      rw [hr] at hstep
      exact (run_of_fault hstep).trans (reactAll_cons_fault hr).symm
    | refused r =>
      rw [hr] at hstep
      exact (run_of_refused hstep).trans (reactAll_cons_refused hr).symm

/-! ### A request cycle -/

/-- A completed frame is the buffer whose levels were received, with no overruns. -/
theorem Packed.complete {b : FrameBuffer} {s : State} (hw : s.params.wf = true) (hb : FitsGeometry s.params b)
    (h : Packed (frameLevels s.params b) s) : s.buf = b ∧ s.clocks = s.params.nBits ∧ s.overrunCount = 0 := by
  refine ⟨buffer_ext_bits hw h.fits hb fun k hk => ?_, ?_, ?_⟩
  · rw [h.bits k hk, getD_frameLevels hk]
  · rw [h.clocks, length_frameLevels, Nat.min_self]
  · rw [h.overruns, length_frameLevels, Nat.sub_self, Nat.zero_min]

/-- The cycle as a sequence of reactions: the request, the edges of a buffer, and the completing tick. -/
theorem reactAll_requestCycle {s : State} {b : FrameBuffer} (hw : s.params.wf = true) (hb : FitsGeometry s.params b)
    (ha : s.acq = .requestSent) :
    ∃ t, reactAll (.tick :: (frameEvents s.params b ++ [.tick])) s = .next t ∧ t.stimulus = s.stimulus ∧
      t.acq = .awaitingWindow ∧ t.elapsed = 0 ∧ t.req = .high ∧ t.buf = b ∧ t.clocks = s.params.nBits ∧
      t.overrunCount = 0 ∧ t.sink = s.sink ++ [(s.ticks + 2, (decodeFrame s.params b 0).toReport)] := by
  obtain ⟨u, hu, hpacked, ⟨hacq, -, -⟩, hsink, ⟨hp, hstim, -⟩, hticks⟩ :=
    reactAll_edges (levels := frameLevels s.params b)
      (s := { clearAcquisition (beginTick s) with req := .low, acq := .awaitingData }) hw
      (packed_nil_of_cleared rfl rfl rfl rfl rfl)
  replace hp : u.params = s.params := hp
  rw [List.nil_append, ← hp] at hpacked
  obtain ⟨hbuf, hclocks, hovr⟩ := hpacked.complete (hp ▸ hw) (hp ▸ hb)
  refine ⟨completeFrame u, (reactAll_cons (react_request ha)).trans (reactAll_snoc hu (react_done hacq hclocks)), hstim,
    rfl, rfl, rfl, hbuf, hclocks.trans (congrArg _ hp), hovr, ?_⟩
  rw [completeFrame_sink, hbuf, hovr, hsink, hp, hticks]
  rfl

/-- Settles O58: the run is the sequence of reactions, which are those of `reactAll_requestCycle`. -/
theorem requestCycleDeliversTheFrame : Obligations.RequestCycleDeliversTheFrame := by
  unfold Obligations.RequestCycleDeliversTheFrame
  intro s b rest hw hb ha hst
  have hlen : (Event.tick :: (frameEvents s.params b ++ [.tick])).length = s.params.nBits + 2 := by
    rw [List.length_cons, List.length_append, frameEvents, List.length_map, length_frameLevels]
    rfl
  have hrun := runIsTheSequenceOfReactions _ s rest hst
  rw [hlen] at hrun
  obtain ⟨t, ht, hcycle⟩ := reactAll_requestCycle (s := { s with stimulus := rest }) hw hb ha
  exact ⟨t, hrun.trans ht, hcycle⟩

end Sys2Proof.Machine
end

section
/-! PROOF. Under a conforming caliper and a punctual tick every report is a measurement (60_exceptions.md R195; decision
D23, log entry 24). -/

namespace Sys2Proof.Machine

/-- A tick is answered in every state. -/
theorem react_tick_answers (s : State) : ∃ t, react .tick s = .next t := by
  cases ha : s.acq with
  | awaitingWindow =>
    obtain he | he := Nat.lt_or_ge (s.elapsed.toNat + 1) s.params.idleTicks
    · exact ⟨_, react_hold ha he⟩
    · exact ⟨_, react_expire ha he⟩
  | requestSent => exact ⟨_, react_request ha⟩
  | awaitingData =>
    by_cases hc : s.clocks = s.params.nBits
    · exact ⟨_, react_done ha hc⟩
    · obtain he | he := Nat.lt_or_ge s.params.timeoutTicks (s.elapsed.toNat + 1)
      · exact ⟨_, react_timeout ha hc he⟩
      · exact ⟨_, react_wait ha hc he⟩

/-- What a conforming caliper keeps true: while data is awaited the levels received and those still owed are together
the bits of one conforming frame; outside that nothing is owed and no overrun is counted. -/
structure Answering (pending : List Level) (s : State) : Prop where
  awaited : s.acq = .awaitingData → ∃ b received, ConformingFrame s.params b ∧
    frameLevels s.params b = received ++ pending ∧ Packed received s
  idle : s.acq ≠ .awaitingData → pending = [] ∧ s.overrunCount = 0

/-- No more levels than a frame has are received, so none is an overrun. -/
theorem Answering.overrunCount {pending : List Level} {s : State} (h : Answering pending s) : s.overrunCount = 0 := by
  by_cases ha : s.acq = .awaitingData
  · obtain ⟨b, received, -, hframe, hpacked⟩ := h.awaited ha
    have hlen := congrArg List.length hframe
    rw [length_frameLevels, List.length_append] at hlen
    have := hpacked.overruns
    omega
  · exact (h.idle ha).2

/-- Levels are owed only while data is awaited. -/
theorem Answering.awaitingData_of_owed {d : Level} {pending : List Level} {s : State} (h : Answering (d :: pending) s) :
    s.acq = .awaitingData := by
  by_contra hne
  exact absurd (h.idle hne).1 (List.cons_ne_nil _ _)

/-- An owed level arrives. -/
theorem Answering.edge {d : Level} {pending : List Level} {s t : State} (h : Answering (d :: pending) s)
    (hw : s.params.wf = true) (ht : react (.clkFall d) s = .next t) : Answering pending t := by
  have ha := h.awaitingData_of_owed
  obtain ⟨b, received, hb, hframe, hpacked⟩ := h.awaited ha
  obtain ⟨⟨hacq, -⟩, -⟩ := react_clkFall_frame ht
  have hp := react_params ht
  refine ⟨fun _ => ⟨b, received ++ [d], hp ▸ hb, ?_, packed_history hw hpacked ht⟩, fun hne => ?_⟩
  · rw [hp, hframe, List.append_assoc, List.singleton_append]
  · exact absurd (hacq.trans ha) hne

/-- The request is made and a whole frame is owed. -/
theorem answering_request {s t : State} {b : FrameBuffer} (hb : ConformingFrame s.params b) (ha : s.acq = .requestSent)
    (ht : react .tick s = .next t) : Answering (frameLevels s.params b) t := by
  obtain rfl := Host.Outcome.next.inj ((react_request ha).symm.trans ht)
  exact ⟨fun _ => ⟨b, [], hb, rfl, packed_nil_of_cleared rfl rfl rfl rfl rfl⟩, fun hne => absurd rfl hne⟩

/-- With a complete frame nothing more is owed, and the buffer is the conforming frame. -/
theorem Answering.complete {pending : List Level} {s : State} (h : Answering pending s) (hw : s.params.wf = true)
    (ha : s.acq = .awaitingData) (hc : s.clocks = s.params.nBits) :
    pending = [] ∧ ConformingFrame s.params s.buf := by
  obtain ⟨b, received, hb, hframe, hpacked⟩ := h.awaited ha
  have hlen := congrArg List.length hframe
  rw [length_frameLevels, List.length_append] at hlen
  have hclocks := hpacked.clocks
  have hnil : pending = [] := List.eq_nil_of_length_eq_zero (by omega)
  rw [hnil, List.append_nil] at hframe
  rw [← hframe] at hpacked
  rw [(hpacked.complete hw hb.1).1]
  exact ⟨hnil, hb⟩

/-- A conforming frame is measured, whatever the strict option and the count. -/
theorem decodeFrame_conforming {p : Config.Params} {b : FrameBuffer} (h : ConformingFrame p b) (o : Nat) :
    (decodeFrame p b o).toReport.isMeas = true := by
  obtain ⟨-, hdp, -, hdigits⟩ := h
  have hdecimal : hasNonDecimalDigit p.layout b = false := by
    rw [hasNonDecimalDigit, List.any_eq_false]
    intro n hn
    have := hdigits n hn
    simpa using this
  rw [decodeFrame_eq_meas_iff.2 ⟨hdp, fun _ => hdecimal, rfl⟩]
  rfl

/-- A tick outside RequestSent keeps what is owed, and reports only a measurement. -/
theorem Answering.tick {pending : List Level} {s t : State} (h : Answering pending s) (hw : s.params.wf = true)
    (hrs : s.acq ≠ .requestSent)
    (hpunctual : s.acq = .awaitingData → frameComplete s = false → timedOut s = false)
    (ht : react .tick s = .next t) : Answering pending t ∧ ∀ r, t.rpt = some r → r.isMeas = true := by
  cases reaction_of_react ht with
  | request ha => exact absurd ha hrs
  | hold ha =>
    have hidle := h.idle (by rw [ha]; decide)
    exact ⟨⟨fun h' => absurd (ha.symm.trans h') (by decide), fun _ => hidle⟩, nofun⟩
  | expire ha => exact ⟨⟨nofun, fun _ => h.idle (by rw [ha]; decide)⟩, nofun⟩
  | done ha hc =>
    obtain ⟨hnil, hb⟩ := h.complete hw ha hc
    refine ⟨⟨nofun, fun _ => ⟨hnil, h.overrunCount⟩⟩, ?_⟩
    rintro r ⟨⟩
    exact decodeFrame_conforming hb _
  | timeout ha hc he =>
    have hnot := hpunctual ha ((not_frameComplete_iff s).2 hc)
    exact absurd ((timedOut_iff s).2 he) (by simp [hnot])
  | wait ha =>
    refine ⟨⟨fun _ => ?_, fun hne => absurd ha hne⟩, nofun⟩
    obtain ⟨b, received, hb, hframe, hpacked⟩ := h.awaited ha
    exact ⟨b, received, hb, hframe, hpacked.congr rfl ⟨rfl, rfl, rfl, rfl, rfl⟩⟩

/-- One event of a conforming trace: it is answered, the rest of the trace conforms with what is then owed, and what it
reports is a measurement. -/
theorem Answering.step {e : Event} {es : List Event} {pending : List Level} {s : State} (h : Answering pending s)
    (hw : s.params.wf = true) (hconform : ConformingCaliper pending (e :: es) s)
    (hpunctual : e = .tick → s.acq = .awaitingData → frameComplete s = false → timedOut s = false) :
    ∃ t pending', react e s = .next t ∧ Answering pending' t ∧ ConformingCaliper pending' es t ∧
      ∀ r, t.rpt = some r → r.isMeas = true := by
  cases e with
  | rst => exact hconform.elim
  | clkFall d =>
    obtain ⟨rest, rfl, hrest⟩ := hconform
    obtain ⟨b, received, -, -, hpacked⟩ := h.awaited h.awaitingData_of_owed
    obtain ⟨t, ht⟩ := hpacked.react_answers hw (.clkFall d)
    obtain ⟨-, ⟨hrpt, -⟩, -⟩ := react_clkFall_frame ht
    exact ⟨t, rest, ht, h.edge hw ht, hrest t ht, by rw [hrpt]; exact nofun⟩
  | tick =>
    obtain ⟨t, ht⟩ := react_tick_answers s
    rw [ConformingCaliper] at hconform
    split at hconform
    next ha =>
      obtain ⟨-, b, hb, hrest⟩ := hconform
      have hnone : t.rpt = none := by
        obtain rfl := Host.Outcome.next.inj ((react_request ha).symm.trans ht)
        rfl
      exact ⟨t, _, ht, answering_request hb ha ht, hrest t ht, by rw [hnone]; exact nofun⟩
    next ha =>
      obtain ⟨hnext, hrpt⟩ := h.tick hw ha (hpunctual rfl) ht
      exact ⟨t, pending, ht, hnext, hconform t ht, hrpt⟩

/-- A beginning of a conforming trace, from any state in which the caliper answers as it should. -/
theorem Answering.reactAll {es rest : List Event} {pending : List Level} {s : State} (h : Answering pending s)
    (hw : s.params.wf = true) (hconform : ConformingCaliper pending (es ++ rest) s) (hpunctual : Punctual es s) :
    ∃ t new, Machine.reactAll es s = .next t ∧ t.sink = s.sink ++ new ∧ (∀ r ∈ new, r.2.isMeas = true) ∧
      t.overrunCount = 0 := by
  induction es generalizing s pending with
  | nil => exact ⟨s, [], rfl, (List.append_nil _).symm, nofun, h.overrunCount⟩
  | cons e es ih =>
    obtain ⟨hnow, hlater⟩ := hpunctual
    obtain ⟨u, owed', hu, hanswer, hconform', hmeas⟩ := h.step hw hconform hnow
    obtain ⟨t, new, ht, hsink, hnew, hovr⟩ := ih hanswer (react_params hu ▸ hw) hconform' (hlater u hu)
    refine ⟨t, u.rpt.toList.map (u.ticks, ·) ++ new, (reactAll_cons hu).trans ht, ?_, fun r hr => ?_, hovr⟩
    · rw [hsink, react_sink hu, List.append_assoc]
    · obtain hr | hr := List.mem_append.1 hr
      · obtain ⟨x, hx, rfl⟩ := List.mem_map.1 hr
        exact hmeas x (Option.mem_toList.1 hx)
      · exact hnew r hr

/-- Settles O59: outside AwaitingData with no overruns nothing is owed, and `Answering.reactAll` follows the trace. -/
theorem conformingCaliperAlwaysMeasures : Obligations.ConformingCaliperAlwaysMeasures := by
  unfold Obligations.ConformingCaliperAlwaysMeasures
  intro es rest s hs ha hovr hconform hpunctual
  have hstart : Answering [] s := ⟨fun h => absurd h ha, fun _ => ⟨rfl, hovr⟩⟩
  exact hstart.reactAll hs.params hconform hpunctual


end Sys2Proof.Machine
end
